-- ==== Sys2Proof/Word.lean ====
section
/-! DEFINITION. The value types of spec/00_scope.md rule R10: bytes, byte sequences and 32-bit words. -/

namespace Sys2Proof

/-- `Byte` (also `u8`) of rule R10: an unsigned 8-bit value. -/
abbrev Byte := BitVec 8

/-- `u32` of rule R10: an unsigned 32-bit value, bit 0 the least significant (rule R12). -/
abbrev Word := BitVec 32

/-- `Bytes` of rule R10: a finite sequence of bytes, byte 0 first (rule R11). -/
abbrev Bytes := List Byte

end Sys2Proof
end

