-- ==== Sys2Proof/Machine/Bytes.lean ====
section
/-! DEFINITION. Byte sequences and their integers (spec/00_scope.md rules R11 to R13). -/

namespace Sys2Proof.Machine

/-- `x[a..b)` of rule R11, and `MemRead(x, a, b - a)` of rules R14 and R41. -/
def slice (x : Bytes) (a b : Nat) : Bytes := (x.drop a).take (b - a)

/-- `rep(v, n)` of rule R11. -/
def rep (v : Byte) (n : Nat) : Bytes := List.replicate n v

/-- Bytewise exclusive or of two sequences of one length. -/
def xorBytes (x y : Bytes) : Bytes := List.zipWith (· ^^^ ·) x y

/-- `OS2IP` of rule R13: the first byte is the most significant. -/
def os2ip (x : Bytes) : Nat := x.foldl (fun acc b => acc * 256 + b.toNat) 0

/-- `I2OSP(v, k)` of rule R13, for `v < 256^k`: `k` bytes, the most significant first. -/
def i2osp (v : Nat) : Nat → Bytes
  | 0 => []
  | k + 1 => BitVec.ofNat 8 (v / 256 ^ k) :: i2osp v k

/-- `octlen(n)` of rule R13: the least `k` with `n < 256^k`. -/
def octlen (n : Nat) : Nat := if n = 0 then 0 else n.log2 / 8 + 1

end Sys2Proof.Machine
end

