-- ==== Sys2Proof/Config.lean ====
section
/-! DEFINITION. The configuration record CFG (spec/10_state.md rule R28) and the model's free values.
The record is part of the machine's state, so a statement over every state is a statement over every
instance (spec/00_scope.md rules R8 and R9). -/

namespace Sys2Proof

/-- `KE_PAD` (rules R8, R28): the padding that SKGEN uses. -/
inductive KePad where
  /-- OAEP with SHA-1, MGF1-SHA1 and the empty label, encoded 0. -/
  | oaepSha1
  /-- PKCS#1 v1.5, encoded 1. -/
  | pkcs1V15
  deriving DecidableEq, Repr

/-- `CFG` (rule R28): fixed when the instance is built, read-only to every command. The fields hold values
outside their legal ranges too (notes/assumptions/14.md and 24.md). -/
structure Cfg where
  /-- `CFG.KE_PAD`. -/
  kePad : KePad
  /-- `CFG.SERVER_N`, 1024 bits, unsigned. -/
  serverN : BitVec 1024
  /-- `CFG.SERVER_E`, 1024 bits, unsigned. -/
  serverE : BitVec 1024
  /-- `CFG.OPERAND_MAX`: a number of bytes, or `none` for the spec's unbounded case. A number below 10,032 is
  not legal (rule R28), and what such an instance does is the model's choice: it runs with that limit
  (DESIGN CHOICE, notes/assumptions/24.md). -/
  operandMax : Option Nat
  deriving DecidableEq, Repr

/-- The instance of the spec's own programs (spec/95_test_vectors.md sections 5.1 and 7): SERVER_TEST,
`KE_PAD = OAEP_SHA1`, `OPERAND_MAX = 10032`. The spec leaves all four OPEN (rule R8); this is the
instance that `State.reset` shows and nothing else rests on it.
DESIGN CHOICE (notes/assumptions/1.md), unsafe. -/
def Cfg.specTest : Cfg where
  kePad := .oaepSha1
  serverN := 0xd1a0a8a1780c3343bf24aab1e24b0075fa12cd43daf300541435f64ffdd91bebad0bc79c5a201847bbf63a15fed6f39405d142665db09087828b1e8986a803fc5c106ef660b65a3a222a7af09dc0a6926ad36b9f7c542dae2208dccbe914d43bdf9221b8f74471bf09e90a8888c5a01744ac1f11d798171d60cafd92629519ef
  serverE := 0x010001
  operandMax := some 10032

/-! ### Free values: no body, so nothing can be proved of what they are. -/

/-- Byte `j` of the answer that the entropy source gives of its own accord in its `k`-th such answer
(rule R30: no law on the bytes). DESIGN CHOICE (notes/assumptions/6.md), safe. -/
opaque Config.freeByte (k j : Nat) : Byte

/-- Whether the source's `k`-th answer of its own accord is EXHAUSTED (rule R30).
DESIGN CHOICE (notes/assumptions/6.md), safe. -/
opaque Config.freeExhausted (k : Nat) : Bool

/-- The digest of a message of 2^61 bytes or more, which rule R160 leaves without a value.
DESIGN CHOICE (notes/assumptions/12.md), safe. -/
opaque Config.sha1Beyond (m : Bytes) : BitVec 160

end Sys2Proof
end

