-- ==== Sys2Proof/Syntax.lean ====
section
/-! DEFINITION. The command set (spec/30_encoding.md): one constructor per row of
spec/opcode_table.json, and the transaction that carries a command word with its operands. -/

namespace Sys2Proof

/-- The commands of rule R62. The byte-sequence operands are carried by the transaction, not by the
word (rules R24, R65), so only `tblrd` has an argument: its table index. -/
inductive Instr where
  /-- `crc32`, OPC 0x01, operation rule R83. -/
  | crc32
  /-- `tblrd i`, OPC 0x02, operation rule R84; `i` is the immediate IDX of rule R65. -/
  | tblrd (idx : Nat)
  /-- `skgen`, OPC 0x10, operation rule R101. -/
  | skgen
  /-- `penc`, OPC 0x20, operation rule R113. -/
  | penc
  /-- `pdec`, OPC 0x21, operation rule R114. -/
  | pdec
  /-- `credenc`, OPC 0x30, operation rule R131. -/
  | credenc
  deriving DecidableEq, Repr

/-- One transaction `Issue(h, word, A, B, C)` of rule R60, as captured at issue (rule R51). -/
structure Command where
  /-- The issuing host `h` (rule R20), which gets the response. -/
  host : Nat
  /-- The 32-bit command word (rule R61). -/
  word : Word
  /-- Operand `A` (rule R24). -/
  a : Bytes
  /-- Operand `B` (rule R24). -/
  b : Bytes
  /-- Operand `C` (rule R24). -/
  c : Bytes
  deriving DecidableEq, Repr

end Sys2Proof
end

