-- ==== Sys2Proof/Machine/State.lean ====
section
/-! DEFINITION. The machine's state as plain data (spec/10_state.md), the state after reset, and the
reasons a step can stop. -/

namespace Sys2Proof.Machine

/-- The status codes of spec/60_exceptions.md rule R200, by name. -/
inductive Status where
  | ok
  | errIllegal
  | errLength
  | errHex
  | errKey
  | errTooLarge
  | errFrame
  | errPadding
  | errRng
  | errUnavailable
  | errConfig
  | errHalted
  deriving DecidableEq, Repr

/-- A command's response (rule R25). -/
structure Response where
  /-- STATUS, by its name in rule R200; its byte is `Status.code`. -/
  status : Status
  /-- RESULT, a `u32` value without a byte order (rule R42, item 3). -/
  result : Word
  /-- OUT, the output byte sequence. -/
  out : Bytes
  deriving DecidableEq, Repr

/-- A response together with the host that gets it (rules R25, R218). -/
structure Delivery where
  host : Nat
  response : Response
  deriving DecidableEq, Repr

/-- One answer of the entropy source to a draw request (rule R30). A stall is no answer. -/
inductive Answer where
  /-- `Bytes v`. -/
  | bytes (v : Bytes)
  /-- `EXHAUSTED`. -/
  | exhausted
  deriving DecidableEq, Repr

/-- A draw request (rules R14, R30). -/
inductive DrawReq where
  /-- `Draw(n)`: `n` bytes of any value. -/
  | any (n : Nat)
  /-- `DrawNZ(n)`: `n` bytes each in 1..255. -/
  | nonzero (n : Nat)
  deriving DecidableEq, Repr

/-- What occupies the engine (rule R31: while a command holds, no other command is executed). -/
inductive EngineStatus where
  /-- No command is held by a stall. -/
  | free
  /-- The first outstanding command holds: the entropy source has not answered this draw. -/
  | stalled (req : DrawReq)
  /-- The source has answered since; the same command still occupies the engine. -/
  | resumed
  deriving DecidableEq, Repr

/-- The step of one agent (rule R20). A schedule of turns is how the outside world fixes the order in
which the agents move and what they are given (rules R48, R238). -/
inductive Turn where
  /-- A host issues a command (rule R60). -/
  | issue (c : Command)
  /-- Reset is requested, by a host or by power-on (rules R230, R231). -/
  | reset
  /-- The engine executes the first outstanding command (rule R44). -/
  | engine
  /-- The engine takes up the command of this host next (rule R48: the order between hosts is free). -/
  | arbitrate (host : Nat)
  /-- The table generator takes one step (rule R81). -/
  | generator
  /-- The platform's entropy source supplies this answer (rules R30, R238). -/
  | entropy (a : Answer)
  /-- The entropy source answers the stalled draw of its own accord, with a free value (rule R30). -/
  | source
  /-- No agent moves. -/
  | idle
  deriving DecidableEq, Repr

/-- `CRC_TABLE` (rules R23, R40) as the list of the entries that hold a value: indices strictly rising,
an unlisted index holds no value (rules R26, R230). -/
abbrev CrcTable := List (Nat × Word)

/-- The state. The first six fields are the block's persistent state, exactly those of rule R23. The
others are what the transaction interface and the agents of rule R20 need. -/
structure State where
  /-- `CRC_TABLE` (rule R23). -/
  table : CrcTable
  /-- `GEN_IDX`, 0..256 (rules R23, R26). -/
  genIdx : Nat
  /-- `TBL_VALID`, 1 bit (rules R23, R26). -/
  tblValid : Bool
  /-- `FATAL`, 1 bit (rules R23, R27). -/
  fatal : Bool
  /-- `FATAL_CAUSE`, a `u8` status code (rules R23, R27). -/
  fatalCause : Byte
  /-- `CFG` (rules R23, R28). -/
  cfg : Cfg
  /-- Whether a first reset has been taken (rule R231). -/
  powered : Bool
  /-- The outstanding commands, in the order the engine takes them (rules R48, R60). -/
  pending : List Command
  /-- What occupies the engine (rule R31). -/
  engine : EngineStatus
  /-- The answers the entropy source has ready, first one first (rule R30). -/
  entropy : List Answer
  /-- The parameter `RNG_LIVE` (rules R8, R237). -/
  rngLive : Bool
  /-- The model's own: how many answers the source has given of its own accord; the argument of the
  free values of Config. -/
  drawCount : Nat
  /-- The model's own: the responses the hosts have got, oldest first (rule R25: the block keeps none). -/
  delivered : List Delivery
  /-- The model's own: the hosts whose command a reset dropped, which get no response (rule R230). -/
  dropped : List Nat
  /-- The model's own: the turns that the outside world still dictates. -/
  schedule : List Turn
  deriving DecidableEq, Repr

/-- Why the machine stops. Neither can happen in a state that the reset action leads to. -/
inductive Fault where
  /-- Raised by `crc32` and `tblrd`: the entry `i` of CRC_TABLE is read and holds no value (rule R41:
  defined only for `0 ≤ i ≤ 255` and `TBL_VALID = 1`). Safe. -/
  | tableNoValue (i : Nat)
  /-- Raised by `skgen` and `credenc`: RSAEP is called outside its domain (rule R170: `n ≥ 1`, `e ≥ 1`,
  `m < n`). Safe. -/
  | rsaOutOfRange
  deriving DecidableEq, Repr

/-- What the model gives no meaning. -/
inductive Refusal where
  /-- Raised by no arm of `exec` that has a meaning: an instruction not modelled. Safe. -/
  | notModelled (mnemonic : String)
  /-- Raised by a host's issue: the host already has a command outstanding, which is outside the spec and
  refused by a model (rule R238). Safe. -/
  | secondCommand (host : Nat)
  deriving DecidableEq, Repr

/-- The three outcomes of a step, over this machine's types. -/
abbrev Result := Host.Outcome State Fault Refusal

/-- A block that has had no reset yet (rule R231). Its registers' contents mean nothing: no turn but a
reset has an effect in it. -/
def State.unpowered (cfg : Cfg) : State where
  table := []
  genIdx := 0
  tblValid := false
  fatal := false
  fatalCause := 0
  cfg := cfg
  powered := false
  pending := []
  engine := .free
  entropy := []
  rngLive := false
  drawCount := 0
  delivered := []
  dropped := []
  schedule := []

/-- Right after the power-on reset (rules R230, R231, R234) of the instance `Cfg.specTest`, whose key
passes the reset check of rule R232: the start state of the spec's program P1
(spec/95_test_vectors.md section 7.1). -/
def State.reset : State where
  table := []
  genIdx := 0
  tblValid := false
  fatal := false
  fatalCause := 0x00
  cfg := Cfg.specTest
  powered := true
  pending := []
  engine := .free
  entropy := []
  rngLive := false
  drawCount := 0
  delivered := []
  dropped := []
  schedule := []

end Sys2Proof.Machine
end

