-- ==== Sys2Proof/Machine/Flags.lean ====
section
/-! DEFINITION. The codes and classes of spec/60_exceptions.md rule R200, and the two state bits that
one command leaves for later ones (spec/10_state.md rule R22): FATAL with its cause, and TBL_VALID. The
block has no other flags. -/

namespace Sys2Proof.Machine

/-- The code of rule R200. -/
def Status.code : Status → Byte
  | .ok => 0x00
  | .errIllegal => 0x01
  | .errLength => 0x10
  | .errHex => 0x11
  | .errKey => 0x12
  | .errTooLarge => 0x13
  | .errFrame => 0x20
  | .errPadding => 0x21
  | .errRng => 0x30
  | .errUnavailable => 0x31
  | .errConfig => 0x32
  | .errHalted => 0x3F

/-- The class nibble `STATUS[7:4]` of rule R200. -/
def Status.classNibble (st : Status) : BitVec 4 := st.code.extractLsb' 4 4

/-- The errors that make the block fatal (the last column of rule R200). `ERR_HALTED` is answered by a
block that is fatal already. -/
def Status.setsFatal : Status → Bool
  | .errRng => true
  | .errUnavailable => true
  | .errConfig => true
  | .ok => false
  | .errIllegal => false
  | .errLength => false
  | .errHex => false
  | .errKey => false
  | .errTooLarge => false
  | .errFrame => false
  | .errPadding => false
  | .errHalted => false

/-- The latch of rule R205; while FATAL is set, FATAL_CAUSE does not change (rule R27). -/
def latchFatal (st : Status) (s : State) : State :=
  if st.setsFatal && !s.fatal then { s with fatal := true, fatalCause := st.code } else s

/-- TBL_VALID is set by the step that makes `GEN_IDX` 256 (rule R81). -/
def tblValidAfter (genIdx : Nat) (tblValid : Bool) : Bool :=
  if genIdx = 256 then true else tblValid

/-- The encoding of `CFG.KE_PAD` (rule R28). -/
def kePadCode : KePad → BitVec 1
  | .oaepSha1 => 0
  | .pkcs1V15 => 1

/-- Rule R232: the fixed server key is malformed. -/
def keyMalformed (cfg : Cfg) : Bool :=
  decide (octlen cfg.serverN.toNat ≠ 128 ∨ cfg.serverE = 0)

end Sys2Proof.Machine
end

