-- ==== Sys2Proof/WellFormed.lean ====
section
/-! DEFINITION. Which instructions the encoding admits. -/

namespace Sys2Proof

/-- Rule R65: the only immediate is `tblrd`'s index, which is in `0..255`. Every other command has no
field to check. -/
def WellFormed : Instr → Bool
  | .crc32 => true
  | .tblrd idx => decide (idx < 256)
  | .skgen => true
  | .penc => true
  | .pdec => true
  | .credenc => true

end Sys2Proof
end

