-- ==== Sys2Proof/Decode.lean ====
section
/-! DEFINITION. The decoder of spec/30_encoding.md rules R61 to R65, total on every 32-bit word, and
the encoder after it. -/

namespace Sys2Proof

/-- Why a command word is illegal: the three cases of rule R63, in its order. -/
inductive DecodeError where
  /-- `word[31:16] ≠ 0`. -/
  | reservedNotZero
  /-- `word[7:0]` is not one of the six opcodes of rule R62. -/
  | unknownOpcode
  /-- `word[15:8] ≠ 0` although the opcode is not `tblrd`'s. -/
  | indexNotZero
  deriving DecidableEq, Repr

/-- The field `RSV` of rule R61. -/
def rsvField (w : Word) : BitVec 16 := w.extractLsb' 16 16

/-- The field `IDX` of rule R61. -/
def idxField (w : Word) : Byte := w.extractLsb' 8 8

/-- The field `OPC` of rule R61. -/
def opcField (w : Word) : Byte := w.extractLsb' 0 8

/-- The opcode map of rule R62, with `tblrd`'s index assembled as rule R65 says. -/
def opcodeMap (opc idx : Byte) : Option Instr :=
  if opc = 0x01 then some .crc32
  else if opc = 0x02 then some (.tblrd idx.toNat)
  else if opc = 0x10 then some .skgen
  else if opc = 0x20 then some .penc
  else if opc = 0x21 then some .pdec
  else if opc = 0x30 then some .credenc
  else none

/-- The command that a word selects, or why the word is illegal (rules R62, R63). -/
def decode (w : Word) : Except DecodeError Instr :=
  if rsvField w ≠ 0 then .error .reservedNotZero
  else match opcodeMap (opcField w) (idxField w) with
    | none => .error .unknownOpcode
    | some i => if opcField w ≠ 0x02 ∧ idxField w ≠ 0 then .error .indexNotZero else .ok i

/-- The row's instruction of a word numbered as spec/opcode_table.json numbers it. The word is a value
(rule R42, item 4: its layout on a bus is the platform's), so no byte order enters. -/
def decodeTableWord (nbits w : Nat) : Option Instr :=
  match decode (BitVec.ofNat 32 (w % 2 ^ nbits)) with
  | .ok i => some i
  | .error _ => none

/-- The fields of rule R61 put together: RSV is zero, IDX in bits 15:8, OPC in bits 7:0. -/
def assembleWord (idx opc : Byte) : Word := (idx.zeroExtend 32 <<< 8) ||| opc.zeroExtend 32

/-- The word of a well-formed command, from the patterns of rule R64. -/
def encode : Instr → Word
  | .crc32 => assembleWord 0 0x01
  | .tblrd idx => assembleWord (BitVec.ofNat 8 idx) 0x02
  | .skgen => assembleWord 0 0x10
  | .penc => assembleWord 0 0x20
  | .pdec => assembleWord 0 0x21
  | .credenc => assembleWord 0 0x30

end Sys2Proof
end

