-- ==== Sys2Proof/Machine/Operands.lean ====
section
/-! DEFINITION. The operand forms: the three byte sequences of a transaction (spec/10_state.md rule
R24) against the size limit, and the entropy source's draws
(spec/10_state.md rule R30), which are the commands' other input. -/

namespace Sys2Proof.Machine

/-- One operand against `OPERAND_MAX` (rule R207); `none` is the unbounded case. -/
def exceeds (limit : Option Nat) (x : Bytes) : Bool :=
  match limit with
  | none => false
  | some m => decide (m < x.length)

/-- Rule R207: any of the three operands, ignored ones too, is longer than `CFG.OPERAND_MAX`. -/
def operandTooLong (cfg : Cfg) (c : Command) : Bool :=
  exceeds cfg.operandMax c.a || exceeds cfg.operandMax c.b || exceeds cfg.operandMax c.c

/-- How many bytes a request asks for. -/
def reqLength : DrawReq → Nat
  | .any n => n
  | .nonzero n => n

/-- Whether `v` is an answer to a request: `len(v) = n`, and for `DrawNZ` every byte in 1..255
(rule R30). -/
def answersReq (req : DrawReq) (v : Bytes) : Bool :=
  match req with
  | .any n => decide (v.length = n)
  | .nonzero n => decide (v.length = n) && v.all fun b => b != 0

/-- The outcome of a draw, with the answers left (rule R30). -/
inductive Drawn where
  /-- `Bytes v`. -/
  | bytes (v : Bytes) (rest : List Answer)
  /-- `EXHAUSTED`. -/
  | exhausted (rest : List Answer)
  /-- No answer. -/
  | stalled
  deriving DecidableEq, Repr

/-- `Draw(n)` and `DrawNZ(n)` of rule R30 on the answers the source has ready. An entry that is no answer
to this request is passed over (DESIGN CHOICE, notes/assumptions/5.md). -/
def takeDraw (req : DrawReq) : List Answer → Drawn
  | [] => .stalled
  | .exhausted :: rest => .exhausted rest
  | .bytes v :: rest => if answersReq req v then .bytes v rest else takeDraw req rest

end Sys2Proof.Machine
end

