-- ==== Sys2Proof/Machine/Ops.lean ====
section
/-! DEFINITION. The named operations on the state: the table's reads and writes, the response, the error
response (which is all there is of an exception: spec/60_exceptions.md rules R201, R212, R213), the
common checks, and the steps of the host, the entropy source and the reset. -/

namespace Sys2Proof.Machine

/-! ### CRC_TABLE (rules R40, R41) -/

/-- `CRC_TABLE[i]`; `none` where the entry holds no value. -/
def CrcTable.read : CrcTable → Nat → Option Word
  | [], _ => none
  | (k, v) :: rest, i => if k = i then some v else CrcTable.read rest i

/-- `CRC_TABLE[i] <- v`, in the table's one form. -/
def CrcTable.write : CrcTable → Nat → Word → CrcTable
  | [], i, v => [(i, v)]
  | (k, w) :: rest, i, v =>
    if i < k then (i, v) :: (k, w) :: rest
    else if i = k then (i, v) :: rest
    else (k, w) :: CrcTable.write rest i v

/-- Indices rise strictly from `lo` on and stay below 256. -/
def CrcTable.wfFrom : Nat → CrcTable → Bool
  | _, [] => true
  | lo, (k, _) :: rest => decide (lo ≤ k ∧ k < 256) && CrcTable.wfFrom (k + 1) rest

/-- The table's one form: indices strictly rising, all in 0..255. An entry that is listed holds a value,
so no entry equals what an unlisted index reads as. -/
def CrcTable.wf (t : CrcTable) : Bool := CrcTable.wfFrom 0 t

/-! ### Responses (rules R25, R201) -/

/-- The command `c` ends: its response goes to its host, the other outstanding commands are `rest`, and
the engine is free. -/
def answer (c : Command) (rest : List Command) (r : Response) (s : State) : State :=
  { s with
    pending := rest
    engine := .free
    delivered := s.delivered ++ [{ host := c.host, response := r }] }

/-- The RESULT of an error response (rules R201, R206). -/
def errorResult (st : Status) (s : State) : Word :=
  match st with
  | .errHalted => s.fatalCause.zeroExtend 32
  | _ => 0

/-- `raise E` (rules R14, R201): the command ends with status `E`, and a resource error latches FATAL
(rule R205). No state is saved and no mode changes, so there is no return from it (rules R212, R213). -/
def raise (st : Status) (c : Command) (rest : List Command) (s : State) : State :=
  let s' := latchFatal st s
  answer c rest { status := st, result := errorResult st s', out := [] } s'

/-! ### The reply of an operation -/

/-- What an operation's pseudocode comes to, with the answers the entropy source has left. -/
inductive Reply where
  /-- `return` with RESULT and OUT (rule R14). -/
  | done (result : Word) (out : Bytes) (rest : List Answer)
  /-- `raise E` (rule R14). -/
  | raise (st : Status) (rest : List Answer)
  /-- `hold` on a draw without an answer (rules R14, R31). -/
  | hold (req : DrawReq)
  /-- The operation reads a value that is not defined. -/
  | stop (f : Fault)
  deriving DecidableEq, Repr

/-- A draw within an operation: go on with the bytes, raise `ERR_RNG`, or hold (rules R30, R31,
R205). -/
def withDraw (req : DrawReq) (q : List Answer) (k : Bytes → List Answer → Reply) : Reply :=
  match takeDraw req q with
  | .bytes v rest => k v rest
  | .exhausted rest => .raise .errRng rest
  | .stalled => .hold req

/-- The reply's effect on the state. A held command takes no draw and writes nothing (rule R44); the
engine stays occupied by it (rule R31). -/
def commit (c : Command) (rest : List Command) (s : State) : Reply → Result
  | .done result out q =>
    .next (answer c rest { status := .ok, result := result, out := out } { s with entropy := q })
  | .raise st q => .next (raise st c rest { s with entropy := q })
  | .hold req => .next { s with engine := .stalled req }
  | .stop f => .fault f

/-! ### The common checks (rule R209) -/

/-- Steps 1 and 2 of rule R209 for the first outstanding command: `ERR_HALTED` under FATAL, a hold while
the table is not ready, else `k`. A hold is a step that changes nothing, and so is a step of an engine
with nothing to execute (DEDUCED, notes/assumptions/3.md). -/
def whenReady (s : State) (k : Command → List Command → Result) : Result :=
  match s.pending with
  | [] => .next s
  | c :: rest =>
    if s.fatal then .next (raise .errHalted c rest s)
    else if s.tblValid then k c rest
    else .next s

/-- Steps 1, 2 and 3 of rule R209 for an illegal word: `ERR_ILLEGAL` (rule R63). -/
def answerIllegal (s : State) : Result :=
  whenReady s fun c rest => .next (raise .errIllegal c rest s)

/-- Steps 1, 2, 4 and 5 of rule R209 for a legal word: the operand limit, then the operation's own
pseudocode. -/
def execute (op : Command → State → Reply) (s : State) : Result :=
  whenReady s fun c rest =>
    if operandTooLong s.cfg c then .next (raise .errLength c rest s)
    else commit c rest s (op c s)

/-- The word of the first outstanding command, decoded: what the engine executes next. -/
def fetch (s : State) : Option (Except DecodeError Instr) :=
  s.pending.head?.map fun c => decode c.word

/-! ### The host (rules R60, R238) -/

/-- `Issue(h, word, A, B, C)`: the operands are captured with the command. A second command of a host
that has one outstanding is outside the spec, and a model refuses it (rule R238). -/
def issue (c : Command) (s : State) : Result :=
  if s.pending.any fun d => d.host == c.host then .refused (.secondCommand c.host)
  else .next { s with pending := s.pending ++ [c] }

/-- The engine takes up the command of host `h` next, unless a held command occupies it (rules R31,
R48). -/
def arbitrate (h : Nat) (s : State) : State :=
  match s.engine, s.pending.find? fun d => d.host == h with
  | .free, some c => { s with pending := c :: s.pending.eraseP fun d => d.host == h }
  | _, _ => s

/-! ### The entropy source (rules R20, R30) -/

/-- The engine's stalled draw has been answered; it is the engine's turn to try again. -/
def resume : EngineStatus → EngineStatus
  | .stalled _ => .resumed
  | e => e

/-- The platform supplies an answer, after those that are ready already. -/
def supply (a : Answer) (s : State) : State :=
  { s with entropy := s.entropy ++ [a], engine := resume s.engine }

/-- Byte `j` of the source's own answer number `k` to a request: a free value, in 1..255 for
`DrawNZ`. -/
def freeAnswerByte (req : DrawReq) (k j : Nat) : Byte :=
  match req with
  | .any _ => Config.freeByte k j
  | .nonzero _ => BitVec.ofNat 8 ((Config.freeByte k j).toNat % 255 + 1)

/-- The source's own answer number `k` to a request: any bytes, or EXHAUSTED (rule R30). -/
def freeAnswer (req : DrawReq) (k : Nat) : Answer :=
  if Config.freeExhausted k then .exhausted
  else .bytes ((List.range (reqLength req)).map (freeAnswerByte req k))

/-- The entropy source answers the stalled draw of its own accord. -/
def sourceStep (s : State) : State :=
  match s.engine with
  | .stalled req =>
    { s with
      entropy := s.entropy ++ [freeAnswer req s.drawCount]
      drawCount := s.drawCount + 1
      engine := .resumed }
  | _ => s

/-! ### Reset (rules R230 to R232) -/

/-- `reset_check` of rule R232. -/
def resetCheck (s : State) : State :=
  if keyMalformed s.cfg then latchFatal .errConfig s else s

/-- The reset action of rule R230. CFG does not change; the outstanding commands are dropped without a
response. Power-on is a reset (rule R231). -/
def resetBlock (s : State) : State :=
  resetCheck
    { s with
      table := []
      genIdx := 0
      tblValid := false
      fatal := false
      fatalCause := 0x00
      powered := true
      pending := []
      engine := .free
      dropped := s.dropped ++ s.pending.map fun c => c.host }

/-! ### Whose turn it is (rules R20, R233, R237) -/

/-- Who moves where the outside world dictates nothing: the engine whenever the first outstanding command
does not hold; while it holds, the agent that can lift the hold, if that agent moves of its own accord
(rule R31). DESIGN CHOICE (notes/assumptions/4.md). -/
def chooseTurn (s : State) : Turn :=
  let generatorOrIdle : Turn := if s.genIdx < 256 then .generator else .idle
  match s.pending with
  | [] => generatorOrIdle
  | _ :: _ =>
    if s.fatal then .engine
    else if s.tblValid then
      match s.engine with
      | .stalled _ => if s.rngLive then .source else .engine
      | _ => .engine
    else generatorOrIdle

/-- The turn the schedule dictates, or the one chosen, with the state whose schedule that turn has left.
Before the first reset nothing but a reset has an effect (rule R231). -/
def nextTurn (s : State) : Turn × State :=
  let (t, s') : Turn × State :=
    match s.schedule with
    | [] => (chooseTurn s, s)
    | t :: rest => (t, { s with schedule := rest })
  (if s.powered || t == .reset then t else .idle, s')

end Sys2Proof.Machine
end

