-- ==== Sys2Proof/Machine/Checksum.lean ====
section
/-! DEFINITION. The CRC32 unit (spec/40_checksum.md): the table generator, `crc32` and `tblrd`. -/

namespace Sys2Proof.Machine

/-- One round of rule R81's loop: a logical shift right by 1, with the polynomial if bit 0 was set. -/
def crcBit (c : Word) : Word :=
  if c.getLsbD 0 then 0xEDB88320 ^^^ (c >>> 1) else c >>> 1

/-- `n` rounds of rule R81's loop. -/
def crcBits : Nat → Word → Word
  | 0, c => c
  | n + 1, c => crcBits n (crcBit c)

/-- The entry that the generator computes for index `i` (rule R81). -/
def crcEntry (i : Nat) : Word := crcBits 8 (BitVec.ofNat 32 i)

/-- `gen_step` of rule R81, enabled exactly when `GEN_IDX < 256`. -/
def genStep (s : State) : State :=
  if s.genIdx < 256 then
    { s with
      table := CrcTable.write s.table s.genIdx (crcEntry s.genIdx)
      genIdx := s.genIdx + 1
      tblValid := tblValidAfter (s.genIdx + 1) s.tblValid }
  else s

/-- The table with its first `n` entries generated (rules R26, R82). -/
def builtTable (n : Nat) : CrcTable := (List.range n).map fun i => (i, crcEntry i)

/-- The table index of rule R83: the low 8 bits of `crc ^ zext_32(b)`. -/
def crcIndex (crc : Word) (b : Byte) : Nat := ((crc ^^^ b.zeroExtend 32) &&& 0xFF).toNat

/-- The loop of rule R83 over the bytes left; the error is the index of an entry without a value. -/
def crcLoop (t : CrcTable) (crc : Word) : Bytes → Except Nat Word
  | [] => .ok crc
  | b :: bs =>
    match CrcTable.read t (crcIndex crc b) with
    | none => .error (crcIndex crc b)
    | some v => crcLoop t (v ^^^ (crc >>> 8)) bs

/-- The pseudocode of rule R83. -/
def crc32Op (c : Command) (s : State) : Reply :=
  match crcLoop s.table 0xFFFFFFFF c.a with
  | .ok crc => .done (~~~crc) [] s.entropy
  | .error i => .stop (.tableNoValue i)

/-- `crc32` (rule R83). -/
def execCrc32 (s : State) : Result := execute crc32Op s

/-- The pseudocode of rule R84. -/
def tblrdOp (idx : Nat) (_c : Command) (s : State) : Reply :=
  match CrcTable.read s.table idx with
  | some v => .done v [] s.entropy
  | none => .stop (.tableNoValue idx)

/-- `tblrd idx` (rule R84). -/
def execTblrd (idx : Nat) (s : State) : Result := execute (tblrdOp idx) s

end Sys2Proof.Machine
end

