-- ==== Sys2Proof/Machine/Codec.lean ====
section
/-! DEFINITION. The text codecs (spec/47_prim_codecs.md): hex decoding and base64 encoding, on ASCII
bytes. -/

namespace Sys2Proof.Machine

/-- Whether a byte is an accepted hex character (rule R185). -/
def isHexChar (ch : Byte) : Bool :=
  let v := ch.toNat
  decide (0x30 ≤ v ∧ v ≤ 0x39 ∨ 0x41 ≤ v ∧ v ≤ 0x46 ∨ 0x61 ≤ v ∧ v ≤ 0x66)

/-- `hv(ch)` of rule R185. -/
def hexValue (ch : Byte) : Nat :=
  let v := ch.toNat
  if v ≤ 0x39 then v - 0x30 else if v ≤ 0x46 then v - 0x37 else v - 0x57

/-- The bytes of the pairs of hex characters, first pair first (rule R185). -/
def hexPairs : Bytes → Bytes
  | hi :: lo :: rest => BitVec.ofNat 8 (16 * hexValue hi + hexValue lo) :: hexPairs rest
  | _ => []

/-- `HexDecode(s)` of rule R185; `none` is its `FAIL`. -/
def hexDecode (s : Bytes) : Option Bytes :=
  if s.length % 2 ≠ 0 then none
  else if s.all isHexChar then some (hexPairs s)
  else none

/-- `ALPHA[q]` of rule R187, as its ASCII byte. -/
def base64Char (q : Nat) : Byte :=
  if q < 26 then BitVec.ofNat 8 (0x41 + q)
  else if q < 52 then BitVec.ofNat 8 (0x61 + (q - 26))
  else if q < 62 then BitVec.ofNat 8 (0x30 + (q - 52))
  else if q = 62 then 0x2b
  else 0x2f

/-- `q_j` of the 24-bit value `v` of a group (rule R187). -/
def base64Digit (v j : Nat) : Byte := base64Char (v / 2 ^ (18 - 6 * j) % 64)

/-- `Base64(x)` of rule R187. -/
def base64 : Bytes → Bytes
  | [] => []
  | [x] =>
    let v := os2ip [x, 0, 0]
    [base64Digit v 0, base64Digit v 1, 0x3d, 0x3d]
  | [x, y] =>
    let v := os2ip [x, y, 0]
    [base64Digit v 0, base64Digit v 1, base64Digit v 2, 0x3d]
  | x :: y :: z :: rest =>
    let v := os2ip [x, y, z]
    [base64Digit v 0, base64Digit v 1, base64Digit v 2, base64Digit v 3] ++ base64 rest

end Sys2Proof.Machine
end

