-- ==== Sys2Proof/Machine/Sha1.lean ====
section
/-! DEFINITION. SHA-1 and HMAC-SHA1 (spec/45_prim_sha1_hmac.md), and the IV derivation that uses them
(spec/42_payload_cipher.md rule R110). -/

namespace Sys2Proof.Machine

/-- The number `z` of zero bytes in the padding of a message of `len` bytes: the least with
`(len + 1 + z + 8) mod 64 = 0` (rule R160). -/
def sha1ZeroCount (len : Nat) : Nat := (64 - (len + 9) % 64) % 64

/-- The padded message of rule R160. -/
def sha1Pad (m : Bytes) : Bytes :=
  m ++ [0x80] ++ rep 0x00 (sha1ZeroCount m.length) ++ i2osp (8 * m.length) 8

/-- `n` 32-bit words of a block, each big-endian (rule R160). -/
def beWords : Nat → Bytes → List Word
  | 0, _ => []
  | n + 1, x => BitVec.ofNat 32 (os2ip (x.take 4)) :: beWords n (x.drop 4)

/-- The message schedule of rule R161, kept newest word first: `W[t-3]`, `W[t-8]`, `W[t-14]` and
`W[t-16]` stand at positions 2, 7, 13 and 15. -/
def sha1Extend : Nat → List Word → List Word
  | 0, w => w
  | n + 1, w =>
    sha1Extend n
      ((w.getD 2 0 ^^^ w.getD 7 0 ^^^ w.getD 13 0 ^^^ w.getD 15 0).rotateLeft 1 :: w)

/-- `W[0..79]` of one block (rule R161). -/
def sha1Schedule (block : Bytes) : List Word := (sha1Extend 64 (beWords 16 block).reverse).reverse

/-- The round function `f_t` of rule R162. -/
def sha1F (t : Nat) (b c d : Word) : Word :=
  if t < 20 then (b &&& c) ||| (~~~b &&& d)
  else if t < 40 then b ^^^ c ^^^ d
  else if t < 60 then (b &&& c) ||| (b &&& d) ||| (c &&& d)
  else b ^^^ c ^^^ d

/-- The round constant `K_t` of rule R162. -/
def sha1K (t : Nat) : Word :=
  if t < 20 then 0x5A827999
  else if t < 40 then 0x6ED9EBA1
  else if t < 60 then 0x8F1BBCDC
  else 0xCA62C1D6

/-- The five chaining words: `H0..H4`, and `a..e` within a block (rule R161). -/
structure Sha1State where
  a : Word
  b : Word
  c : Word
  d : Word
  e : Word
  deriving DecidableEq, Repr

/-- The initial `H0..H4` of rule R161. -/
def sha1Init : Sha1State :=
  { a := 0x67452301, b := 0xEFCDAB89, c := 0x98BADCFE, d := 0x10325476, e := 0xC3D2E1F0 }

/-- One round of rule R161. -/
def sha1Round (t : Nat) (h : Sha1State) (w : Word) : Sha1State :=
  { a := h.a.rotateLeft 5 + sha1F t h.b h.c h.d + h.e + sha1K t + w
    b := h.a
    c := h.b.rotateLeft 30
    d := h.c
    e := h.d }

/-- The rounds from `t` on, one for each word left (rule R161). -/
def sha1Rounds : Nat → Sha1State → List Word → Sha1State
  | _, h, [] => h
  | t, h, w :: ws => sha1Rounds (t + 1) (sha1Round t h w) ws

/-- One block: its eighty rounds, added to the chaining words (rule R161). -/
def sha1Block (h : Sha1State) (block : Bytes) : Sha1State :=
  let r := sha1Rounds 0 h (sha1Schedule block)
  { a := h.a + r.a, b := h.b + r.b, c := h.c + r.c, d := h.d + r.d, e := h.e + r.e }

/-- `n` blocks in order (rule R161). -/
def sha1Blocks : Nat → Sha1State → Bytes → Sha1State
  | 0, h, _ => h
  | n + 1, h, x => sha1Blocks n (sha1Block h (x.take 64)) (x.drop 64)

/-- The five words written big-endian, `H0` first (rule R160). -/
def sha1Digest (h : Sha1State) : Bytes :=
  i2osp h.a.toNat 4 ++ i2osp h.b.toNat 4 ++ i2osp h.c.toNat 4 ++ i2osp h.d.toNat 4 ++
    i2osp h.e.toNat 4

/-- `SHA1(M)` of rule R161. Rule R160 defines it for messages of fewer than 2^61 bytes; a longer one has
a free digest (DESIGN CHOICE, notes/assumptions/12.md). -/
def sha1 (m : Bytes) : Bytes :=
  if m.length < 2 ^ 61 then
    let padded := sha1Pad m
    sha1Digest (sha1Blocks (padded.length / 64) sha1Init padded)
  else i2osp (Config.sha1Beyond m).toNat 20

/-- The 64-byte key `K0` of rule R164. -/
def hmacKey (k : Bytes) : Bytes :=
  let k' := if k.length > 64 then sha1 k else k
  k' ++ rep 0x00 (64 - k'.length)

/-- `HMAC_SHA1(K, M)` of rule R164. -/
def hmacSha1 (k m : Bytes) : Bytes :=
  let k0 := hmacKey k
  sha1 (xorBytes k0 (rep 0x5c 64) ++ sha1 (xorBytes k0 (rep 0x36 64) ++ m))

/-- `HMAC_IV(K, r, P)` of rule R110. -/
def hmacIv (k r p : Bytes) : Bytes := slice (hmacSha1 (slice k 0 16) (r ++ p)) 0 13 ++ r

end Sys2Proof.Machine
end

