-- ==== Sys2Proof/Machine/Rsa.lean ====
section
/-! DEFINITION. The RSA unit's primitives (spec/46_prim_rsa.md): RSAEP and the two encodings. -/

namespace Sys2Proof.Machine

/-- Square and multiply over the `k` low bits of `e`, the highest first: from `acc`, the residue of `m`
to the power of the higher bits. -/
def modPowBits (n m e : Nat) : Nat → Nat → Nat
  | 0, acc => acc
  | k + 1, acc =>
    let sq := acc * acc % n
    modPowBits n m e k (if e.testBit k then sq * m % n else sq)

/-- `RSAEP(n, e, m) = m^e mod n` of rule R170, by square and multiply so that it can be run on a
1024-bit exponent. -/
def rsaep (n e m : Nat) : Nat := modPowBits n m e (e.log2 + 1) (1 % n)

/-- An encoded message encrypted under `(n, e)` to `k` bytes (rule R171); `none` outside RSAEP's domain
(rule R170). -/
def rsaEncrypt (n e k : Nat) (em : Bytes) : Option Bytes :=
  let m := os2ip em
  if 1 ≤ e ∧ m < n then some (i2osp (rsaep n e m) k) else none

/-- `EME_PKCS1_V15(k, M, PS)` of rule R172; `k` is the length of the whole. -/
def emePkcs1V15 (m ps : Bytes) : Bytes := [0x00, 0x02] ++ ps ++ [0x00] ++ m

/-- `T` of rule R173 from counter `ctr` on, for `n` more counters. -/
def mgf1Blocks (z : Bytes) : Nat → Nat → Bytes
  | 0, _ => []
  | n + 1, ctr => sha1 (z ++ i2osp ctr 4) ++ mgf1Blocks z n (ctr + 1)

/-- `MGF1_SHA1(Z, l)` of rule R173. -/
def mgf1Sha1 (z : Bytes) (l : Nat) : Bytes := (mgf1Blocks z ((l + 19) / 20) 0).take l

/-- `DB` of rule R174. -/
def oaepDataBlock (k : Nat) (m : Bytes) : Bytes :=
  sha1 [] ++ rep 0x00 (k - m.length - 42) ++ [0x01] ++ m

/-- `EME_OAEP_SHA1(k, M, seed)` of rule R174. -/
def emeOaepSha1 (k : Nat) (m seed : Bytes) : Bytes :=
  let maskedDb := xorBytes (oaepDataBlock k m) (mgf1Sha1 seed (k - 21))
  let maskedSeed := xorBytes seed (mgf1Sha1 maskedDb 20)
  [0x00] ++ maskedSeed ++ maskedDb

end Sys2Proof.Machine
end

