-- ==== Sys2Proof/Machine/Credential.lean ====
section
/-! DEFINITION. Credential encryption (spec/43_credential.md): `credenc`. -/

namespace Sys2Proof.Machine

/-- The end of rule R131's pseudocode, for a key `(n, e)` of `k` octets and a drawn `PS`. -/
def credencFinish (n e k : Nat) (secret ps : Bytes) (q : List Answer) : Reply :=
  match rsaEncrypt n e k (emePkcs1V15 secret ps) with
  | some ct => .done 0 (base64 ct) q
  | none => .stop .rsaOutOfRange

/-- Rule R131's pseudocode once both hex texts are decoded; `k` is `octlen(n)` (rule R132). -/
def credencWithKey (n e : Nat) (c : Command) (s : State) : Reply :=
  if n = 0 ∨ e = 0 then .raise .errKey s.entropy
  else
    let k := octlen n
    if c.a.length + 11 > k then .raise .errTooLarge s.entropy
    else
      withDraw (.nonzero (k - c.a.length - 3)) s.entropy fun ps q =>
        credencFinish n e k c.a ps q

/-- The pseudocode of rule R131. -/
def credencOp (c : Command) (s : State) : Reply :=
  match hexDecode c.b with
  | none => .raise .errHex s.entropy
  | some nb =>
    match hexDecode c.c with
    | none => .raise .errHex s.entropy
    | some eb => credencWithKey (os2ip nb) (os2ip eb) c s

/-- `credenc` (rule R131). -/
def execCredenc (s : State) : Result := execute credencOp s

end Sys2Proof.Machine
end

