-- ==== Sys2Proof/Machine/KeyEncapsulation.lean ====
section
/-! DEFINITION. Key encapsulation (spec/41_session_key.md): `skgen`. -/

namespace Sys2Proof.Machine

/-- The end of rule R101's pseudocode: `EM` is encrypted under the server key and returned after
`plain` (rule R102). -/
def skgenFinish (cfg : Cfg) (plain em : Bytes) (q : List Answer) : Reply :=
  match rsaEncrypt cfg.serverN.toNat cfg.serverE.toNat 128 em with
  | some encrypted => .done 0 (plain ++ encrypted) q
  | none => .stop .rsaOutOfRange

/-- Rule R101's pseudocode once `plain` is drawn: the padding that `CFG.KE_PAD` names, with its own draw
(rule R103). The message is `plain || nonce`. -/
def skgenPad (cfg : Cfg) (nonce plain : Bytes) (q : List Answer) : Reply :=
  match cfg.kePad with
  | .oaepSha1 =>
    withDraw (.any 20) q fun seed q' =>
      skgenFinish cfg plain (emeOaepSha1 128 (plain ++ nonce) seed) q'
  | .pkcs1V15 =>
    withDraw (.nonzero 77) q fun ps q' =>
      skgenFinish cfg plain (emePkcs1V15 (plain ++ nonce) ps) q'

/-- The pseudocode of rule R101. -/
def skgenOp (c : Command) (s : State) : Reply :=
  if c.a.length ≠ 16 then .raise .errLength s.entropy
  else withDraw (.any 32) s.entropy (skgenPad s.cfg c.a)

/-- `skgen` (rule R101). -/
def execSkgen (s : State) : Result := execute skgenOp s

end Sys2Proof.Machine
end

