-- ==== Sys2Proof/Machine/Aes.lean ====
section
/-! DEFINITION. The AES-256 unit's primitives (spec/44_prim_aes.md): the block cipher, CBC mode and
PKCS#7 padding. A block and a round-key word are byte sequences of 16 and 4 bytes. -/

namespace Sys2Proof.Machine

/-! ### Field arithmetic and the state (rule R140) -/

/-- `xtime` of rule R140. -/
def xtime (a : Byte) : Byte := (a <<< 1) ^^^ (if a.getLsbD 7 then 0x1B else 0x00)

/-- The exclusive or of `xtime^i(a)` over the set bits `i` of `b`, for its `n` low bits. -/
def gmulBits : Nat → Byte → Byte → Byte
  | 0, _, _ => 0
  | n + 1, a, b => (if b.getLsbD 0 then a else 0) ^^^ gmulBits n (xtime a) (b >>> 1)

/-- `a • b` of rule R140. -/
def gmul (a b : Byte) : Byte := gmulBits 8 a b

/-- `s[r][c]` of rule R140, of a state kept as its 16 bytes in load order. -/
def cell (s : Bytes) (r c : Nat) : Byte := s.getD (r + 4 * c) 0

/-- The state whose byte in row `r` and column `c` is `f r c` (rule R140). -/
def ofCells (f : Nat → Nat → Byte) : Bytes := (List.range 16).map fun i => f (i % 4) (i / 4)

/-! ### Round functions -/

/-- `SBOX` of rule R144: row `hi`, column `lo`. -/
def sboxRows : List (List Byte) :=
  [[0x63, 0x7c, 0x77, 0x7b, 0xf2, 0x6b, 0x6f, 0xc5, 0x30, 0x01, 0x67, 0x2b, 0xfe, 0xd7, 0xab, 0x76],
   [0xca, 0x82, 0xc9, 0x7d, 0xfa, 0x59, 0x47, 0xf0, 0xad, 0xd4, 0xa2, 0xaf, 0x9c, 0xa4, 0x72, 0xc0],
   [0xb7, 0xfd, 0x93, 0x26, 0x36, 0x3f, 0xf7, 0xcc, 0x34, 0xa5, 0xe5, 0xf1, 0x71, 0xd8, 0x31, 0x15],
   [0x04, 0xc7, 0x23, 0xc3, 0x18, 0x96, 0x05, 0x9a, 0x07, 0x12, 0x80, 0xe2, 0xeb, 0x27, 0xb2, 0x75]] ++
  [[0x09, 0x83, 0x2c, 0x1a, 0x1b, 0x6e, 0x5a, 0xa0, 0x52, 0x3b, 0xd6, 0xb3, 0x29, 0xe3, 0x2f, 0x84],
   [0x53, 0xd1, 0x00, 0xed, 0x20, 0xfc, 0xb1, 0x5b, 0x6a, 0xcb, 0xbe, 0x39, 0x4a, 0x4c, 0x58, 0xcf],
   [0xd0, 0xef, 0xaa, 0xfb, 0x43, 0x4d, 0x33, 0x85, 0x45, 0xf9, 0x02, 0x7f, 0x50, 0x3c, 0x9f, 0xa8],
   [0x51, 0xa3, 0x40, 0x8f, 0x92, 0x9d, 0x38, 0xf5, 0xbc, 0xb6, 0xda, 0x21, 0x10, 0xff, 0xf3, 0xd2]] ++
  [[0xcd, 0x0c, 0x13, 0xec, 0x5f, 0x97, 0x44, 0x17, 0xc4, 0xa7, 0x7e, 0x3d, 0x64, 0x5d, 0x19, 0x73],
   [0x60, 0x81, 0x4f, 0xdc, 0x22, 0x2a, 0x90, 0x88, 0x46, 0xee, 0xb8, 0x14, 0xde, 0x5e, 0x0b, 0xdb],
   [0xe0, 0x32, 0x3a, 0x0a, 0x49, 0x06, 0x24, 0x5c, 0xc2, 0xd3, 0xac, 0x62, 0x91, 0x95, 0xe4, 0x79],
   [0xe7, 0xc8, 0x37, 0x6d, 0x8d, 0xd5, 0x4e, 0xa9, 0x6c, 0x56, 0xf4, 0xea, 0x65, 0x7a, 0xae, 0x08]] ++
  [[0xba, 0x78, 0x25, 0x2e, 0x1c, 0xa6, 0xb4, 0xc6, 0xe8, 0xdd, 0x74, 0x1f, 0x4b, 0xbd, 0x8b, 0x8a],
   [0x70, 0x3e, 0xb5, 0x66, 0x48, 0x03, 0xf6, 0x0e, 0x61, 0x35, 0x57, 0xb9, 0x86, 0xc1, 0x1d, 0x9e],
   [0xe1, 0xf8, 0x98, 0x11, 0x69, 0xd9, 0x8e, 0x94, 0x9b, 0x1e, 0x87, 0xe9, 0xce, 0x55, 0x28, 0xdf],
   [0x8c, 0xa1, 0x89, 0x0d, 0xbf, 0xe6, 0x42, 0x68, 0x41, 0x99, 0x2d, 0x0f, 0xb0, 0x54, 0xbb, 0x16]]

/-- `INV_SBOX` of rule R144: row `hi`, column `lo`. -/
def invSboxRows : List (List Byte) :=
  [[0x52, 0x09, 0x6a, 0xd5, 0x30, 0x36, 0xa5, 0x38, 0xbf, 0x40, 0xa3, 0x9e, 0x81, 0xf3, 0xd7, 0xfb],
   [0x7c, 0xe3, 0x39, 0x82, 0x9b, 0x2f, 0xff, 0x87, 0x34, 0x8e, 0x43, 0x44, 0xc4, 0xde, 0xe9, 0xcb],
   [0x54, 0x7b, 0x94, 0x32, 0xa6, 0xc2, 0x23, 0x3d, 0xee, 0x4c, 0x95, 0x0b, 0x42, 0xfa, 0xc3, 0x4e],
   [0x08, 0x2e, 0xa1, 0x66, 0x28, 0xd9, 0x24, 0xb2, 0x76, 0x5b, 0xa2, 0x49, 0x6d, 0x8b, 0xd1, 0x25]] ++
  [[0x72, 0xf8, 0xf6, 0x64, 0x86, 0x68, 0x98, 0x16, 0xd4, 0xa4, 0x5c, 0xcc, 0x5d, 0x65, 0xb6, 0x92],
   [0x6c, 0x70, 0x48, 0x50, 0xfd, 0xed, 0xb9, 0xda, 0x5e, 0x15, 0x46, 0x57, 0xa7, 0x8d, 0x9d, 0x84],
   [0x90, 0xd8, 0xab, 0x00, 0x8c, 0xbc, 0xd3, 0x0a, 0xf7, 0xe4, 0x58, 0x05, 0xb8, 0xb3, 0x45, 0x06],
   [0xd0, 0x2c, 0x1e, 0x8f, 0xca, 0x3f, 0x0f, 0x02, 0xc1, 0xaf, 0xbd, 0x03, 0x01, 0x13, 0x8a, 0x6b]] ++
  [[0x3a, 0x91, 0x11, 0x41, 0x4f, 0x67, 0xdc, 0xea, 0x97, 0xf2, 0xcf, 0xce, 0xf0, 0xb4, 0xe6, 0x73],
   [0x96, 0xac, 0x74, 0x22, 0xe7, 0xad, 0x35, 0x85, 0xe2, 0xf9, 0x37, 0xe8, 0x1c, 0x75, 0xdf, 0x6e],
   [0x47, 0xf1, 0x1a, 0x71, 0x1d, 0x29, 0xc5, 0x89, 0x6f, 0xb7, 0x62, 0x0e, 0xaa, 0x18, 0xbe, 0x1b],
   [0xfc, 0x56, 0x3e, 0x4b, 0xc6, 0xd2, 0x79, 0x20, 0x9a, 0xdb, 0xc0, 0xfe, 0x78, 0xcd, 0x5a, 0xf4]] ++
  [[0x1f, 0xdd, 0xa8, 0x33, 0x88, 0x07, 0xc7, 0x31, 0xb1, 0x12, 0x10, 0x59, 0x27, 0x80, 0xec, 0x5f],
   [0x60, 0x51, 0x7f, 0xa9, 0x19, 0xb5, 0x4a, 0x0d, 0x2d, 0xe5, 0x7a, 0x9f, 0x93, 0xc9, 0x9c, 0xef],
   [0xa0, 0xe0, 0x3b, 0x4d, 0xae, 0x2a, 0xf5, 0xb0, 0xc8, 0xeb, 0xbb, 0x3c, 0x83, 0x53, 0x99, 0x61],
   [0x17, 0x2b, 0x04, 0x7e, 0xba, 0x77, 0xd6, 0x26, 0xe1, 0x69, 0x14, 0x63, 0x55, 0x21, 0x0c, 0x7d]]

/-- A table's entry for the byte `0x(hi)(lo)` (rule R144). -/
def tableEntry (rows : List (List Byte)) (a : Byte) : Byte :=
  (rows.getD (a.toNat / 16) []).getD (a.toNat % 16) 0

/-- `SBOX[a]` (rule R144). -/
def sbox (a : Byte) : Byte := tableEntry sboxRows a

/-- `INV_SBOX[a]` (rule R144). -/
def invSbox (a : Byte) : Byte := tableEntry invSboxRows a

/-- `SubBytes` of rule R144. -/
def subBytes (s : Bytes) : Bytes := s.map sbox

/-- `InvSubBytes` of rule R144. -/
def invSubBytes (s : Bytes) : Bytes := s.map invSbox

/-- `ShiftRows` of rule R145: `s'[r][c] = s[r][(c + r) mod 4]`. -/
def shiftRows (s : Bytes) : Bytes := ofCells fun r c => cell s r ((c + r) % 4)

/-- `InvShiftRows` of rule R145: `s'[r][(c + r) mod 4] = s[r][c]`. -/
def invShiftRows (s : Bytes) : Bytes := ofCells fun r c => cell s r ((c + 4 - r) % 4)

/-- The byte of row `r` of a column multiplied by a circulant matrix whose first row is `k0 k1 k2 k3`;
both matrices of rule R146 have that form. -/
def mixColumn (k0 k1 k2 k3 : Byte) (s : Bytes) (r c : Nat) : Byte :=
  gmul k0 (cell s r c) ^^^ gmul k1 (cell s ((r + 1) % 4) c) ^^^
    gmul k2 (cell s ((r + 2) % 4) c) ^^^ gmul k3 (cell s ((r + 3) % 4) c)

/-- `MixColumns` of rule R146. -/
def mixColumns (s : Bytes) : Bytes := ofCells (mixColumn 0x02 0x03 0x01 0x01 s)

/-- `InvMixColumns` of rule R146. -/
def invMixColumns (s : Bytes) : Bytes := ofCells (mixColumn 0x0e 0x0b 0x0d 0x09 s)

/-- `AddRoundKey(r)` of rule R146, with the round-key words `w`. -/
def addRoundKey (w : List Bytes) (r : Nat) (s : Bytes) : Bytes :=
  ofCells fun j c => cell s j c ^^^ (w.getD (4 * r + c) []).getD j 0

/-! ### Key expansion (rule R147) -/

/-- `SubWord(RotWord(t))` with the round constant added, `SubWord(t)`, or `t`, by `i mod 8`. -/
def keyWordTemp (i : Nat) (rcon : Byte) (t : Bytes) : Bytes :=
  if i % 8 = 0 then
    [sbox (t.getD 1 0) ^^^ rcon, sbox (t.getD 2 0), sbox (t.getD 3 0), sbox (t.getD 0 0)]
  else if i % 8 = 4 then t.map sbox
  else t

/-- The words from `w[i]` on, `n` of them, over the earlier words kept newest first: `w[i-1]` and
`w[i-8]` stand at positions 0 and 7. -/
def keyExtend : Nat → Nat → Byte → List Bytes → List Bytes
  | 0, _, _, ws => ws
  | n + 1, i, rcon, ws =>
    let w := xorBytes (ws.getD 7 []) (keyWordTemp i rcon (ws.getD 0 []))
    keyExtend n (i + 1) (if i % 8 = 0 then xtime rcon else rcon) (w :: ws)

/-- The first eight words: the key's own bytes. -/
def keyWords (k : Bytes) : List Bytes := (List.range 8).map fun i => slice k (4 * i) (4 * i + 4)

/-- `KeyExpansion(K)` of rule R147: `w[0..59]`. -/
def keyExpansion (k : Bytes) : List Bytes := (keyExtend 52 8 0x01 (keyWords k).reverse).reverse

/-! ### The block cipher -/

/-- One middle round of rule R141. -/
def encRound (w : List Bytes) (r : Nat) (s : Bytes) : Bytes :=
  addRoundKey w r (mixColumns (shiftRows (subBytes s)))

/-- One middle round of rule R142. -/
def decRound (w : List Bytes) (r : Nat) (s : Bytes) : Bytes :=
  invMixColumns (addRoundKey w r (invSubBytes (invShiftRows s)))

/-- Rounds `1..n` of rule R141. -/
def encRounds (w : List Bytes) : Nat → Bytes → Bytes
  | 0, s => s
  | n + 1, s => encRound w (n + 1) (encRounds w n s)

/-- Rounds `n` down to 1 of rule R142. -/
def decRounds (w : List Bytes) : Nat → Bytes → Bytes
  | 0, s => s
  | n + 1, s => decRounds w n (decRound w (n + 1) s)

/-- `AES256_Enc(K, X)` of rule R141. -/
def aes256Enc (k x : Bytes) : Bytes :=
  let w := keyExpansion k
  addRoundKey w 14 (shiftRows (subBytes (encRounds w 13 (addRoundKey w 0 x))))

/-- `AES256_Dec(K, Y)` of rule R142. -/
def aes256Dec (k y : Bytes) : Bytes :=
  let w := keyExpansion k
  addRoundKey w 0 (invSubBytes (invShiftRows (decRounds w 13 (addRoundKey w 14 y))))

/-! ### CBC mode and padding -/

/-- The loop of rule R150 over the `n` blocks left. -/
def cbcEncBlocks (k : Bytes) : Nat → Bytes → Bytes → Bytes
  | 0, _, _ => []
  | n + 1, prev, q =>
    let blk := aes256Enc k (xorBytes (q.take 16) prev)
    blk ++ cbcEncBlocks k n blk (q.drop 16)

/-- `CBC_Enc(K, IV, Q)` of rule R150. -/
def cbcEnc (k iv q : Bytes) : Bytes := cbcEncBlocks k (q.length / 16) iv q

/-- The loop of rule R151 over the `n` blocks left. -/
def cbcDecBlocks (k : Bytes) : Nat → Bytes → Bytes → Bytes
  | 0, _, _ => []
  | n + 1, prev, ct =>
    let blk := ct.take 16
    xorBytes (aes256Dec k blk) prev ++ cbcDecBlocks k n blk (ct.drop 16)

/-- `CBC_Dec(K, IV, C)` of rule R151. -/
def cbcDec (k iv ct : Bytes) : Bytes := cbcDecBlocks k (ct.length / 16) iv ct

/-- `Pad16(P)` of rule R152. -/
def pad16 (p : Bytes) : Bytes :=
  let n := 16 - p.length % 16
  p ++ rep (BitVec.ofNat 8 n) n

/-- `Unpad16(Q)` of rule R153; `none` is its `FAIL`. -/
def unpad16 (q : Bytes) : Option Bytes :=
  if q.length = 0 ∨ q.length % 16 ≠ 0 then none
  else
    let p := (q.getD (q.length - 1) 0).toNat
    if p < 1 ∨ p > 16 then none
    else if slice q (q.length - p) q.length = rep (BitVec.ofNat 8 p) p then some (q.take (q.length - p))
    else none

end Sys2Proof.Machine
end

