-- ==== Sys2Proof/Machine/PayloadCipher.lean ====
section
/-! DEFINITION. The payload cipher (spec/42_payload_cipher.md): `penc` and `pdec`. -/

namespace Sys2Proof.Machine

/-- The frame of rules R112 and R113 for a 32-byte key, a drawn `r` and a plaintext. -/
def pencFrame (k r p : Bytes) : Bytes :=
  let iv := hmacIv k r p
  aes256Enc k iv ++ cbcEnc k iv (pad16 p)

/-- The pseudocode of rule R113. -/
def pencOp (c : Command) (s : State) : Reply :=
  if c.b.length ≠ 32 then .raise .errLength s.entropy
  else withDraw (.any 3) s.entropy fun r q => .done 0 (pencFrame c.b r c.a) q

/-- `penc` (rule R113). -/
def execPenc (s : State) : Result := execute pencOp s

/-- The frame-length checks of rule R114: shorter than 16 bytes, not a whole number of blocks after
the IV, or no ciphertext block at all. -/
def frameMalformed (f : Bytes) : Bool :=
  decide (f.length < 16 ∨ (f.length - 16) % 16 ≠ 0 ∨ f.length = 16)

/-- The plaintext of a frame of right length (rule R114); `none` where the padding is invalid. -/
def pdecPlain (k f : Bytes) : Option Bytes :=
  let iv := aes256Dec k (slice f 0 16)
  unpad16 (cbcDec k iv (f.drop 16))

/-- The pseudocode of rule R114, its checks in the order of rule R115. -/
def pdecOp (c : Command) (s : State) : Reply :=
  if c.b.length ≠ 32 then .raise .errLength s.entropy
  else if frameMalformed c.a then .raise .errFrame s.entropy
  else
    match pdecPlain c.b c.a with
    | none => .raise .errPadding s.entropy
    | some p => .done 0 p s.entropy

/-- `pdec` (rule R114). -/
def execPdec (s : State) : Result := execute pdecOp s

end Sys2Proof.Machine
end

