-- ==== Sys2Proof/Machine/Dispatch.lean ====
section
/-! DEFINITION. The engine's execution of one command (spec/30_encoding.md rule R62): one arm per
constructor of Instr, each one call of its meaning. The operands are those of the first outstanding
command. -/

namespace Sys2Proof.Machine

def exec (i : Instr) (s : State) : Host.Outcome State Fault Refusal :=
  match i with
  | .crc32 => Sys2Proof.Machine.execCrc32 s
  | .tblrd idx => Sys2Proof.Machine.execTblrd idx s
  | .skgen => Sys2Proof.Machine.execSkgen s
  | .penc => Sys2Proof.Machine.execPenc s
  | .pdec => Sys2Proof.Machine.execPdec s
  | .credenc => Sys2Proof.Machine.execCredenc s

end Sys2Proof.Machine
end

