-- ==== Sys2Proof/Machine/Step.lean ====
section
/-! DEFINITION. One step of the machine: the next agent moves (spec/10_state.md rule R20). -/

namespace Sys2Proof.Machine

/-- The engine's step: the first outstanding command is executed by its word's operation, or answered as
illegal (rules R60, R63, R209). -/
def engineStep (s : State) : Result :=
  match fetch s with
  | none => .next s
  | some (.ok i) => exec i s
  | some (.error _) => answerIllegal s

/-- The step of the agent whose turn it is, in a state whose schedule that turn has left. -/
def takeTurn (t : Turn) (s : State) : Result :=
  match t with
  | .issue c => issue c s
  | .reset => .next (resetBlock s)
  | .engine => engineStep s
  | .arbitrate h => .next (arbitrate h s)
  | .generator => .next (genStep s)
  | .entropy a => .next (supply a s)
  | .source => .next (sourceStep s)
  | .idle => .next s

/-- One step. -/
def step (s : State) : Host.Outcome State Fault Refusal :=
  takeTurn (nextTurn s).1 (nextTurn s).2

/-- The state in which the very next step executes the command word `w`: the word is issued by host 0
with empty operands, nothing else is outstanding or scheduled, the table is ready and the block is not
fatal. It stands for the host's issue after the 256 generator steps (notes/assumptions/10.md). -/
def State.withFetchWord (s : State) (nbits w : Nat) : State :=
  { s with
    table := builtTable 256
    genIdx := 256
    tblValid := true
    fatal := false
    fatalCause := 0x00
    powered := true
    pending := [{ host := 0, word := BitVec.ofNat 32 (w % 2 ^ nbits), a := [], b := [], c := [] }]
    engine := .free
    schedule := [] }

end Sys2Proof.Machine
end

