-- ==== Sys2Proof/Machine/Assembler.lean ====
section
/-! DEFINITION. The assembly language of spec/30_encoding.md rules R66 and R67, from its abstract syntax
on: statements, literals, `.def` and the pseudo-instructions. It is the host's notation for the
transactions it issues; the machine itself reads words (notes/assumptions/20.md). -/

namespace Sys2Proof.Machine

/-- The operand slots of rule R66. -/
inductive Slot where
  | a
  | b
  | c
  deriving DecidableEq, Repr

/-- The literals of rule R66. -/
inductive Literal where
  /-- `x"..."`: pairs of hex digits, as the ASCII bytes of the digits. -/
  | hex (digits : Bytes)
  /-- `"..."`: ASCII bytes, no terminator. -/
  | ascii (text : Bytes)
  /-- `u"..."`: the UTF-8 bytes of the text, given by its code points. -/
  | utf8 (points : List Nat)
  /-- `rep(byte, count)`. -/
  | rep (byte : Byte) (count : Nat)
  /-- `literal || literal`. -/
  | concat (x y : Literal)
  /-- A name bound by `.def`. -/
  | name (n : String)
  deriving DecidableEq, Repr

/-- A statement: the mnemonic with its index, and the operands in the order written. -/
structure Statement where
  instr : Instr
  operands : List (Slot × Literal)
  deriving DecidableEq, Repr

/-- The pseudo-instructions of rule R67. `credential`'s first operand is text, its others hex text. -/
inductive Pseudo where
  | checksum (l : Literal)
  | sessionkey (n : Literal)
  | encrypt (p k : Literal)
  | decrypt (f k : Literal)
  | credential (secret : List Nat) (modulus exponent : Bytes)
  deriving DecidableEq, Repr

/-- A line of a program. -/
inductive Line where
  | statement (st : Statement)
  | pseudo (p : Pseudo)
  /-- `.def name = literal`. -/
  | define (name : String) (l : Literal)
  deriving DecidableEq, Repr

/-- The UTF-8 bytes of one code point (RFC 3629; PRESUMED, notes/assumptions/20.md). -/
def utf8Point (p : Nat) : Bytes :=
  let cont (k : Nat) : Byte := BitVec.ofNat 8 (0x80 + p / 64 ^ k % 64)
  if p < 0x80 then [BitVec.ofNat 8 p]
  else if p < 0x800 then [BitVec.ofNat 8 (0xC0 + p / 64), cont 0]
  else if p < 0x10000 then [BitVec.ofNat 8 (0xE0 + p / 64 ^ 2), cont 1, cont 0]
  else [BitVec.ofNat 8 (0xF0 + p / 64 ^ 3), cont 2, cont 1, cont 0]

/-- The value bound to a name. Rule R66 does not say what a name bound twice means: the latest `.def` stands
first and holds (DESIGN CHOICE, notes/assumptions/20.md). -/
def lookupName (n : String) : List (String × Bytes) → Option Bytes
  | [] => none
  | (m, v) :: rest => if m = n then some v else lookupName n rest

/-- The bytes of a literal; `none` for a malformed hex text or a name that is not bound. -/
def literalBytes (env : List (String × Bytes)) : Literal → Option Bytes
  | .hex digits => hexDecode digits
  | .ascii text => some text
  | .utf8 points => some (points.flatMap utf8Point)
  | .rep byte count => some (Machine.rep byte count)
  | .concat x y =>
    match literalBytes env x, literalBytes env y with
    | some xs, some ys => some (xs ++ ys)
    | _, _ => none
  | .name n => lookupName n env

/-- The bytes of a slot: the empty sequence where the statement omits it (rule R66); `none` where it is
given twice (DESIGN CHOICE, notes/assumptions/20.md) or its literal has no bytes. -/
def slotBytes (env : List (String × Bytes)) (ops : List (Slot × Literal)) (slot : Slot) :
    Option Bytes :=
  match ops.filter fun o => o.1 == slot with
  | [] => some []
  | [o] => literalBytes env o.2
  | _ => none

/-- A statement assembles to one `Issue` with the word of rule R64 (rule R66). -/
def assembleStatement (env : List (String × Bytes)) (host : Nat) (st : Statement) : Option Command :=
  if WellFormed st.instr then
    match slotBytes env st.operands .a, slotBytes env st.operands .b, slotBytes env st.operands .c with
    | some a, some b, some c => some { host := host, word := encode st.instr, a := a, b := b, c := c }
    | _, _, _ => none
  else none

/-- The expansion of a pseudo-instruction to exactly one command (rule R67). -/
def expandPseudo : Pseudo → Statement
  | .checksum l => { instr := .crc32, operands := [(.a, l)] }
  | .sessionkey n => { instr := .skgen, operands := [(.a, n)] }
  | .encrypt p k => { instr := .penc, operands := [(.a, p), (.b, k)] }
  | .decrypt f k => { instr := .pdec, operands := [(.a, f), (.b, k)] }
  | .credential secret modulus exponent =>
    { instr := .credenc
      operands := [(.a, .utf8 secret), (.b, .ascii modulus), (.c, .ascii exponent)] }

/-- The commands that one host's program issues, in order (rules R21, R66); `none` where a line does not
assemble. A `.def` binds its name for the lines after it, so a use before it does not assemble, and a later
`.def` of the same name rebinds it for the lines after that (DESIGN CHOICE, notes/assumptions/20.md). -/
def assembleProgram (host : Nat) : List (String × Bytes) → List Line → Option (List Command)
  | _, [] => some []
  | env, .define n l :: rest =>
    match literalBytes env l with
    | some v => assembleProgram host ((n, v) :: env) rest
    | none => none
  | env, .statement st :: rest =>
    match assembleStatement env host st, assembleProgram host env rest with
    | some c, some cs => some (c :: cs)
    | _, _ => none
  | env, .pseudo p :: rest =>
    match assembleStatement env host (expandPseudo p), assembleProgram host env rest with
    | some c, some cs => some (c :: cs)
    | _, _ => none

end Sys2Proof.Machine
end

