-- ==== Sys2Proof/Safety.lean ====
section
/-! DEFINITION. What counts as a good state, a complete response and an ended run, in the terms the
statements use. Each predicate is decidable. -/

namespace Sys2Proof.Machine

/-- The legal values of CFG (rule R28). `SERVER_N` and `SERVER_E` are below 2^1024 by their width. -/
abbrev CfgLegal (cfg : Cfg) : Prop :=
  2 ^ 1023 ≤ cfg.serverN.toNat ∧ 1 ≤ cfg.serverE.toNat ∧
    (∀ m ∈ cfg.operandMax, 10032 ≤ m)

/-- Rule R26: the entries below GEN_IDX hold their final values, the others none, and TBL_VALID is set
exactly when `GEN_IDX = 256`. -/
abbrev TableInv (s : State) : Prop :=
  s.genIdx ≤ 256 ∧ s.table = builtTable s.genIdx ∧ (s.tblValid = true ↔ s.genIdx = 256)

/-- Rules R27 and R232: FATAL_CAUSE is 0x00 without FATAL and 0x30 or 0x32 with it, and an instance whose
key is malformed is fatal with 0x32. -/
abbrev FatalInv (s : State) : Prop :=
  (s.fatal = false → s.fatalCause = 0x00) ∧
  (s.fatal = true → s.fatalCause = 0x30 ∨ s.fatalCause = 0x32) ∧
  (keyMalformed s.cfg = true → s.fatal = true ∧ s.fatalCause = 0x32)

/-- Rule R60: no host has two commands outstanding. Rule R31: the engine is occupied only by a command
that is outstanding and has passed the first two checks of rule R209. -/
abbrev TransactionInv (s : State) : Prop :=
  (s.pending.map fun c => c.host).Nodup ∧
  (s.engine ≠ .free → s.pending ≠ [] ∧ s.fatal = false ∧ s.tblValid = true)

/-- The invariant of a block that has been reset. -/
abbrev Inv (s : State) : Prop :=
  s.powered = true ∧ TableInv s ∧ FatalInv s ∧ TransactionInv s

/-- Rules R200, R201, R206 and R208 on one response: a success, or an error with empty OUT, whose RESULT
is 0 except that `ERR_HALTED` carries the cause; two codes never appear. -/
abbrev ResponseComplete (r : Response) : Prop :=
  r.status ≠ .errConfig ∧ r.status ≠ .errUnavailable ∧
  (r.status ≠ .ok → r.out = []) ∧
  (r.status ≠ .ok → r.status ≠ .errHalted → r.result = 0) ∧
  (r.status = .errHalted → r.result = 0x30 ∨ r.result = 0x32)

/-- Every response a host has got is complete. -/
abbrev ResponsesComplete (s : State) : Prop := ∀ d ∈ s.delivered, ResponseComplete d.response

/-- Rule R239: every issued command has been answered, none is outstanding or holding, and the generator
is still running only if no command was issued. The rule does not say whether a block that has had no reset
yet counts as an ended run: here it does not (DESIGN CHOICE, notes/assumptions/25.md). -/
abbrev Ended (s : State) : Prop :=
  s.powered = true ∧ s.pending = [] ∧ s.dropped = [] ∧ (s.genIdx < 256 → s.delivered = [])

/-- What rule R209's first, second and fourth checks ask of a command that is executed by its operation:
it is the first outstanding one, the block is not fatal, the table is ready, and no operand is over the
limit. -/
abbrev Executable (s : State) (c : Command) (rest : List Command) : Prop :=
  s.pending = c :: rest ∧ s.fatal = false ∧ s.tblValid = true ∧ operandTooLong s.cfg c = false

/-- `k` steps lead from `s` to `t`, none of them a fault or a refusal. -/
def Leads : Nat → State → State → Prop
  | 0, s, t => t = s
  | k + 1, s, t => ∃ u, step s = .next u ∧ Leads k u t

/-- The state after a command that ended with OK, every field written out: the response to its host, the
command gone, the engine free, the entropy source's answers down to `q`, and nothing else changed. -/
def completed (s : State) (c : Command) (rest : List Command) (result : Word) (out : Bytes)
    (q : List Answer) : State where
  table := s.table
  genIdx := s.genIdx
  tblValid := s.tblValid
  fatal := s.fatal
  fatalCause := s.fatalCause
  cfg := s.cfg
  powered := s.powered
  pending := rest
  engine := .free
  entropy := q
  rngLive := s.rngLive
  drawCount := s.drawCount
  delivered := s.delivered ++ [{ host := c.host, response := { status := .ok, result := result, out := out } }]
  dropped := s.dropped
  schedule := s.schedule

/-- The state after a command that ended with an error and made no draw, every field written out: the
error response with `result`, and nothing else changed. -/
def rejected (s : State) (c : Command) (rest : List Command) (st : Status) (result : Word) : State where
  table := s.table
  genIdx := s.genIdx
  tblValid := s.tblValid
  fatal := s.fatal
  fatalCause := s.fatalCause
  cfg := s.cfg
  powered := s.powered
  pending := rest
  engine := .free
  entropy := s.entropy
  rngLive := s.rngLive
  drawCount := s.drawCount
  delivered := s.delivered ++ [{ host := c.host, response := { status := st, result := result, out := [] } }]
  dropped := s.dropped
  schedule := s.schedule

/-- The state after a command that met EXHAUSTED (rule R205), every field written out: `ERR_RNG`, FATAL
latched with its cause 0x30, the answers down to `q`, and nothing else changed. -/
def exhaustedState (s : State) (c : Command) (rest : List Command) (q : List Answer) : State where
  table := s.table
  genIdx := s.genIdx
  tblValid := s.tblValid
  fatal := true
  fatalCause := 0x30
  cfg := s.cfg
  powered := s.powered
  pending := rest
  engine := .free
  entropy := q
  rngLive := s.rngLive
  drawCount := s.drawCount
  delivered := s.delivered ++ [{ host := c.host, response := { status := .errRng, result := 0, out := [] } }]
  dropped := s.dropped
  schedule := s.schedule

end Sys2Proof.Machine
end

