-- ==== Sys2Proof/Certificates/Slice0/Obligations.lean ====
section
/-! DEFINITION. The statements for the provers, one `def Obligations.<Name> : Prop` each; each docstring
names the rules of spec/ it formalises. `completed`, `rejected` and `exhaustedState` (Safety.lean) are
states with every field written out, so a conclusion `exec i s = .next …` gives the instruction's result
and its frame at once. -/

open Sys2Proof Sys2Proof.Machine

namespace Sys2Proof.Certificates

/-- The values of CRC_TABLE as rule R82 lists them. -/
def listedTable : List Word :=
  [0x00000000, 0x77073096, 0xEE0E612C, 0x990951BA, 0x076DC419, 0x706AF48F, 0xE963A535, 0x9E6495A3,
   0x0EDB8832, 0x79DCB8A4, 0xE0D5E91E, 0x97D2D988, 0x09B64C2B, 0x7EB17CBD, 0xE7B82D07, 0x90BF1D91,
   0x1DB71064, 0x6AB020F2, 0xF3B97148, 0x84BE41DE, 0x1ADAD47D, 0x6DDDE4EB, 0xF4D4B551, 0x83D385C7,
   0x136C9856, 0x646BA8C0, 0xFD62F97A, 0x8A65C9EC, 0x14015C4F, 0x63066CD9, 0xFA0F3D63, 0x8D080DF5] ++
  [0x3B6E20C8, 0x4C69105E, 0xD56041E4, 0xA2677172, 0x3C03E4D1, 0x4B04D447, 0xD20D85FD, 0xA50AB56B,
   0x35B5A8FA, 0x42B2986C, 0xDBBBC9D6, 0xACBCF940, 0x32D86CE3, 0x45DF5C75, 0xDCD60DCF, 0xABD13D59,
   0x26D930AC, 0x51DE003A, 0xC8D75180, 0xBFD06116, 0x21B4F4B5, 0x56B3C423, 0xCFBA9599, 0xB8BDA50F,
   0x2802B89E, 0x5F058808, 0xC60CD9B2, 0xB10BE924, 0x2F6F7C87, 0x58684C11, 0xC1611DAB, 0xB6662D3D] ++
  [0x76DC4190, 0x01DB7106, 0x98D220BC, 0xEFD5102A, 0x71B18589, 0x06B6B51F, 0x9FBFE4A5, 0xE8B8D433,
   0x7807C9A2, 0x0F00F934, 0x9609A88E, 0xE10E9818, 0x7F6A0DBB, 0x086D3D2D, 0x91646C97, 0xE6635C01,
   0x6B6B51F4, 0x1C6C6162, 0x856530D8, 0xF262004E, 0x6C0695ED, 0x1B01A57B, 0x8208F4C1, 0xF50FC457,
   0x65B0D9C6, 0x12B7E950, 0x8BBEB8EA, 0xFCB9887C, 0x62DD1DDF, 0x15DA2D49, 0x8CD37CF3, 0xFBD44C65] ++
  [0x4DB26158, 0x3AB551CE, 0xA3BC0074, 0xD4BB30E2, 0x4ADFA541, 0x3DD895D7, 0xA4D1C46D, 0xD3D6F4FB,
   0x4369E96A, 0x346ED9FC, 0xAD678846, 0xDA60B8D0, 0x44042D73, 0x33031DE5, 0xAA0A4C5F, 0xDD0D7CC9,
   0x5005713C, 0x270241AA, 0xBE0B1010, 0xC90C2086, 0x5768B525, 0x206F85B3, 0xB966D409, 0xCE61E49F,
   0x5EDEF90E, 0x29D9C998, 0xB0D09822, 0xC7D7A8B4, 0x59B33D17, 0x2EB40D81, 0xB7BD5C3B, 0xC0BA6CAD] ++
  [0xEDB88320, 0x9ABFB3B6, 0x03B6E20C, 0x74B1D29A, 0xEAD54739, 0x9DD277AF, 0x04DB2615, 0x73DC1683,
   0xE3630B12, 0x94643B84, 0x0D6D6A3E, 0x7A6A5AA8, 0xE40ECF0B, 0x9309FF9D, 0x0A00AE27, 0x7D079EB1,
   0xF00F9344, 0x8708A3D2, 0x1E01F268, 0x6906C2FE, 0xF762575D, 0x806567CB, 0x196C3671, 0x6E6B06E7,
   0xFED41B76, 0x89D32BE0, 0x10DA7A5A, 0x67DD4ACC, 0xF9B9DF6F, 0x8EBEEFF9, 0x17B7BE43, 0x60B08ED5] ++
  [0xD6D6A3E8, 0xA1D1937E, 0x38D8C2C4, 0x4FDFF252, 0xD1BB67F1, 0xA6BC5767, 0x3FB506DD, 0x48B2364B,
   0xD80D2BDA, 0xAF0A1B4C, 0x36034AF6, 0x41047A60, 0xDF60EFC3, 0xA867DF55, 0x316E8EEF, 0x4669BE79,
   0xCB61B38C, 0xBC66831A, 0x256FD2A0, 0x5268E236, 0xCC0C7795, 0xBB0B4703, 0x220216B9, 0x5505262F,
   0xC5BA3BBE, 0xB2BD0B28, 0x2BB45A92, 0x5CB36A04, 0xC2D7FFA7, 0xB5D0CF31, 0x2CD99E8B, 0x5BDEAE1D] ++
  [0x9B64C2B0, 0xEC63F226, 0x756AA39C, 0x026D930A, 0x9C0906A9, 0xEB0E363F, 0x72076785, 0x05005713,
   0x95BF4A82, 0xE2B87A14, 0x7BB12BAE, 0x0CB61B38, 0x92D28E9B, 0xE5D5BE0D, 0x7CDCEFB7, 0x0BDBDF21,
   0x86D3D2D4, 0xF1D4E242, 0x68DDB3F8, 0x1FDA836E, 0x81BE16CD, 0xF6B9265B, 0x6FB077E1, 0x18B74777,
   0x88085AE6, 0xFF0F6A70, 0x66063BCA, 0x11010B5C, 0x8F659EFF, 0xF862AE69, 0x616BFFD3, 0x166CCF45] ++
  [0xA00AE278, 0xD70DD2EE, 0x4E048354, 0x3903B3C2, 0xA7672661, 0xD06016F7, 0x4969474D, 0x3E6E77DB,
   0xAED16A4A, 0xD9D65ADC, 0x40DF0B66, 0x37D83BF0, 0xA9BCAE53, 0xDEBB9EC5, 0x47B2CF7F, 0x30B5FFE9,
   0xBDBDF21C, 0xCABAC28A, 0x53B39330, 0x24B4A3A6, 0xBAD03605, 0xCDD70693, 0x54DE5729, 0x23D967BF,
   0xB3667A2E, 0xC4614AB8, 0x5D681B02, 0x2A6F2B94, 0xB40BBE37, 0xC30C8EA1, 0x5A05DF1B, 0x2D02EF8D]

/-- The checksum loop without a table: each byte is exclusive-ored into the low bits, then eight rounds
of the polynomial division are made (rules R17, R81). -/
def tableFreeCrc (crc : Word) : Bytes → Word
  | [] => crc
  | b :: bs => tableFreeCrc (crcBits 8 (crc ^^^ b.zeroExtend 32)) bs

/-- The loop of rule R83 with the entry of rule R81 in place of the stored one. -/
def tableCrc (crc : Word) : Bytes → Word
  | [] => crc
  | b :: bs =>
    tableCrc (crcEntry ((crc ^^^ b.zeroExtend 32).toNat % 256) ^^^ (crc >>> 8)) bs

/-- Undoing rule R174: the seed and the data block of an encoded message. -/
def oaepOpen (em : Bytes) : Bytes × Bytes :=
  let maskedSeed := slice em 1 21
  let maskedDb := em.drop 21
  let seed := xorBytes maskedSeed (mgf1Sha1 maskedDb 20)
  (seed, xorBytes maskedDb (mgf1Sha1 seed maskedDb.length))

/-- The value of a base64 character (rule R187); the padding character counts as 0. -/
def base64Value (ch : Byte) : Nat :=
  let v := ch.toNat
  if 0x41 ≤ v ∧ v ≤ 0x5a then v - 0x41
  else if 0x61 ≤ v ∧ v ≤ 0x7a then v - 0x61 + 26
  else if 0x30 ≤ v ∧ v ≤ 0x39 then v - 0x30 + 52
  else if v = 0x2b then 62
  else if v = 0x2f then 63
  else 0

/-- A base64 text read back: each group of four characters gives 24 bits, of which the padding
characters drop one or two bytes. -/
def base64Read : Bytes → Bytes
  | p :: q :: r :: s :: rest =>
    let v := base64Value p * 2 ^ 18 + base64Value q * 2 ^ 12 + base64Value r * 2 ^ 6 + base64Value s
    let n := if r = 0x3d then 1 else if s = 0x3d then 2 else 3
    (i2osp v 3).take n ++ base64Read rest
  | _ => []

/-- A nibble as a lower-case hex character. -/
def lowerHex (n : Nat) : Byte := BitVec.ofNat 8 (if n < 10 then 0x30 + n else 0x61 + (n - 10))

/-- A nibble as an upper-case hex character. -/
def upperHex (n : Nat) : Byte := BitVec.ofNat 8 (if n < 10 then 0x30 + n else 0x41 + (n - 10))

/-- The status of the last response a host got. -/
def lastStatus (s : State) : Option Status := s.delivered.getLast?.map fun d => d.response.status

end Sys2Proof.Certificates

open Sys2Proof.Certificates

/-! ### Encoding -/

/-- Rule R64: a word is a command exactly when it agrees with the row's match under the row's mask, and a
word that no row matches is illegal. -/
def Obligations.LegalWordsMatchTheirPatterns : Prop :=
  ∀ w : Word,
    (decode w = .ok .crc32 ↔ w &&& 0xFFFFFFFF = 0x00000001) ∧
    ((∃ idx, decode w = .ok (.tblrd idx)) ↔ w &&& 0xFFFF00FF = 0x00000002) ∧
    (decode w = .ok .skgen ↔ w &&& 0xFFFFFFFF = 0x00000010) ∧
    (decode w = .ok .penc ↔ w &&& 0xFFFFFFFF = 0x00000020) ∧
    (decode w = .ok .pdec ↔ w &&& 0xFFFFFFFF = 0x00000021) ∧
    (decode w = .ok .credenc ↔ w &&& 0xFFFFFFFF = 0x00000030) ∧
    ((∃ e, decode w = .error e) ↔
      w &&& 0xFFFFFFFF ≠ 0x00000001 ∧ w &&& 0xFFFF00FF ≠ 0x00000002 ∧
      w &&& 0xFFFFFFFF ≠ 0x00000010 ∧ w &&& 0xFFFFFFFF ≠ 0x00000020 ∧
      w &&& 0xFFFFFFFF ≠ 0x00000021 ∧ w &&& 0xFFFFFFFF ≠ 0x00000030)

/-- Rules R61 to R65: a word decodes to an instruction exactly when the instruction is well-formed and
the word is its encoding. -/
def Obligations.DecodeAndEncodeAgree : Prop :=
  ∀ (w : Word) (i : Instr), decode w = .ok i ↔ WellFormed i = true ∧ w = encode i

/-- Words written out from rules R61, R64 and R65 decode to the commands they stand for, one for each
row, and the spec's three raw words of program P1 are illegal. -/
def Obligations.WordsOfTheSpecDecode : Prop :=
  decode 0x00000001 = .ok .crc32 ∧ decode 0x00000002 = .ok (.tblrd 0) ∧
  decode 0x00008002 = .ok (.tblrd 128) ∧ decode 0x0000FF02 = .ok (.tblrd 255) ∧
  decode 0x00000010 = .ok .skgen ∧ decode 0x00000020 = .ok .penc ∧
  decode 0x00000021 = .ok .pdec ∧ decode 0x00000030 = .ok .credenc ∧
  decode 0x00000000 = .error .unknownOpcode ∧ decode 0x00010002 = .error .reservedNotZero ∧
  decode 0x00000101 = .error .indexNotZero

/-! ### The step -/

/-- Rules R60 and R209: where the engine has its turn and the first outstanding command's word decodes to
`i`, the step is `exec i`. A scheduled engine turn is taken off the schedule. That the engine has the turn
where nothing is scheduled is the model's choice (chooseTurn, DESIGN CHOICE, notes/assumptions/4.md): it
has it in a fatal block, and, with the table ready, unless a stalled draw waits for a live source; where
the source is not live, the engine tries the stalled command again. -/
def Obligations.StepRunsTheDecodedCommand : Prop :=
  ∀ (s : State) (c : Command) (rest : List Command) (i : Instr),
    s.powered = true → s.pending = c :: rest → decode c.word = .ok i →
    (∀ l, s.schedule = .engine :: l → step s = exec i { s with schedule := l }) ∧
    (s.schedule = [] →
      (s.fatal = true ∨ s.tblValid = true ∧ (s.rngLive = false ∨ ∀ req, s.engine ≠ .stalled req)) →
      step s = exec i s)

/-- Rules R63 and R209: a command whose word has a nonzero RSV, an unassigned OPC, or a nonzero IDX with
another opcode than `tblrd`'s is answered with `ERR_ILLEGAL`, whatever the lengths of its operands. -/
def Obligations.IllegalWordsAreAnswered : Prop :=
  ∀ (s : State) (c : Command) (rest : List Command) (l : List Turn),
    s.powered = true → s.schedule = .engine :: l → s.pending = c :: rest →
    s.fatal = false → s.tblValid = true →
    (c.word.toNat / 2 ^ 16 ≠ 0 ∨
      c.word.toNat % 2 ^ 8 ∉ [0x01, 0x02, 0x10, 0x20, 0x21, 0x30] ∨
      c.word.toNat % 2 ^ 8 ≠ 0x02 ∧ c.word.toNat / 2 ^ 8 % 2 ^ 8 ≠ 0) →
    step s = .next (rejected { s with schedule := l } c rest .errIllegal 0)

/-- Rules R31, R44 and R209: while the table is not ready and the block is not fatal, a command holds: the
engine's turn changes nothing, whatever the word and the operands. That a hold is a step that changes
nothing is the model's reading (DEDUCED, notes/assumptions/3.md). -/
def Obligations.CommandsHoldUntilTheTableIsReady : Prop :=
  ∀ (s : State) (l : List Turn),
    s.powered = true → s.schedule = .engine :: l → s.fatal = false → s.tblValid = false →
    step s = .next { s with schedule := l }

/-- Rule R81: a generator step in a block that has been reset computes one entry, leaves every other
entry as it was, counts, and sets TBL_VALID on the 256th; with `GEN_IDX = 256` it is not enabled. -/
def Obligations.GeneratorStepWritesOneEntry : Prop :=
  ∀ (s : State) (l : List Turn),
    s.powered = true → s.schedule = .generator :: l →
    (s.genIdx < 256 →
      ∃ table,
        step s = .next { s with
          schedule := l, table := table, genIdx := s.genIdx + 1,
          tblValid := if s.genIdx + 1 = 256 then true else s.tblValid } ∧
        CrcTable.read table s.genIdx =
          some ((fun c : Word => if c &&& 1 = 1 then 0xEDB88320 ^^^ (c >>> 1) else c >>> 1)^[8]
            (BitVec.ofNat 32 s.genIdx)) ∧
        ∀ j, j ≠ s.genIdx → CrcTable.read table j = CrcTable.read s.table j) ∧
    (256 ≤ s.genIdx → step s = .next { s with schedule := l })

/-- Rules R82, R233 and R234: 256 steps after any reset, with nothing scheduled, the table reads as rule
R82 lists it, TBL_VALID is set, and everything else is as the reset left it. That these steps are the
generator's, and no other agent's, is the model's choice of turns for an empty schedule (chooseTurn,
DESIGN CHOICE, notes/assumptions/4.md). -/
def Obligations.GenerationGivesTheListedTable : Prop :=
  ∀ s : State, s.schedule = [] →
    ∃ table,
      Leads 256 (resetBlock s)
        { resetBlock s with table := table, genIdx := 256, tblValid := true } ∧
      ∀ i, i < 256 → CrcTable.read table i = listedTable[i]?

/-- Rules R230 and R232: a reset clears the table, its bookkeeping and the latch, drops every outstanding
command without a response, keeps CFG, and is fatal with `ERR_CONFIG` exactly when the octet length of
SERVER_N is not 128 or SERVER_E is 0, so not where CFG is in the ranges of rule R28. Every field of the
state is given: that the source's ready answers and the model's own fields are kept, and that the hosts of
the dropped commands are listed, is the model's (DEDUCED, notes/assumptions/21.md). -/
def Obligations.ResetClearsAndChecksTheKey : Prop :=
  ∀ (s : State) (l : List Turn), s.schedule = .reset :: l →
    ∃ malformed : Bool,
      (malformed = true ↔
        ¬ (256 ^ 127 ≤ s.cfg.serverN.toNat ∧ s.cfg.serverN.toNat < 256 ^ 128) ∨ s.cfg.serverE = 0) ∧
      (CfgLegal s.cfg → malformed = false) ∧
      step s = .next
        { table := [], genIdx := 0, tblValid := false, fatal := malformed,
          fatalCause := if malformed then 0x32 else 0x00, cfg := s.cfg, powered := true,
          pending := [], engine := .free, entropy := s.entropy, rngLive := s.rngLive,
          drawCount := s.drawCount, delivered := s.delivered,
          dropped := s.dropped ++ s.pending.map (fun c => c.host), schedule := l }

/-- Rule R231: before the first reset no command is accepted. That every other turn but a reset, a
supplied answer of the entropy source too, has no effect either and is only taken off the schedule, is the
model's reading (DEDUCED, notes/assumptions/9.md). -/
def Obligations.NothingHappensBeforeTheFirstReset : Prop :=
  ∀ s : State, s.powered = false → s.schedule.head? ≠ some .reset →
    step s = .next { s with schedule := s.schedule.tail }

/-- The power-on reset of the instance `Cfg.specTest` gives `State.reset` (rule R231). The instance is the
model's choice (notes/assumptions/1.md). -/
def Obligations.PowerOnResetGivesResetState : Prop :=
  step { State.unpowered Cfg.specTest with schedule := [.reset] } = .next State.reset

/-! ### Errors and the fatal state -/

/-- Rule R206: while FATAL is set, the engine's turn answers the first outstanding command, legal or not,
with `ERR_HALTED` and the cause, without a draw and without a hold, whether the table is ready or not; and
no step but a reset clears FATAL. That the engine has the turn where nothing is scheduled is the model's
choice (chooseTurn, DESIGN CHOICE, notes/assumptions/4.md). -/
def Obligations.FatalBlockAnswersHalted : Prop :=
  ∀ (s : State) (c : Command) (rest : List Command),
    s.powered = true → s.fatal = true → s.pending = c :: rest →
    (∀ l, s.schedule = .engine :: l →
      step s = .next (rejected { s with schedule := l } c rest .errHalted
        (BitVec.ofNat 32 s.fatalCause.toNat))) ∧
    (s.schedule = [] →
      step s = .next (rejected s c rest .errHalted (BitVec.ofNat 32 s.fatalCause.toNat))) ∧
    ∀ t, step s = .next t → s.schedule.head? ≠ some .reset → t.fatal = true

/-- Rules R27, R205 and R206: FATAL and its cause outlast every step but a reset, and a step other than a
reset sets FATAL only with an `ERR_RNG` response and the cause 0x30. -/
def Obligations.FatalIsStickyAndSetByExhaustion : Prop :=
  ∀ s t : State, step s = .next t → s.schedule.head? ≠ some .reset →
    (s.fatal = true → t.fatal = true ∧ t.fatalCause = s.fatalCause) ∧
    (s.fatal = false → t.fatal = true → t.fatalCause = 0x30 ∧ lastStatus t = some .errRng)

/-- Rule R205: a draw that reports exhaustion ends `skgen` (at either draw), `penc` and `credenc` with
`ERR_RNG` and latches FATAL with the cause 0x30. -/
def Obligations.ExhaustionEndsTheDrawingCommands : Prop :=
  ∀ (s : State) (c : Command) (rest : List Command) (q : List Answer), Executable s c rest →
    (c.a.length = 16 → s.entropy = .exhausted :: q →
      exec .skgen s = .next (exhaustedState s c rest q)) ∧
    (∀ plain, c.a.length = 16 → plain.length = 32 → s.entropy = .bytes plain :: .exhausted :: q →
      exec .skgen s = .next (exhaustedState s c rest q)) ∧
    (c.b.length = 32 → s.entropy = .exhausted :: q →
      exec .penc s = .next (exhaustedState s c rest q)) ∧
    (∀ nb eb, hexDecode c.b = some nb → hexDecode c.c = some eb → 0 < os2ip nb → 0 < os2ip eb →
      256 ^ (c.a.length + 10) ≤ os2ip nb → s.entropy = .exhausted :: q →
      exec .credenc s = .next (exhaustedState s c rest q))

/-- Rules R31 and R44: a draw without an answer holds `skgen` (at either draw), `penc` and `credenc`: no
draw is taken, nothing is written, and the engine stays occupied. The record of the occupation with its
request is the model's own (DESIGN CHOICE, notes/assumptions/7.md). -/
def Obligations.StalledDrawsHold : Prop :=
  ∀ (s : State) (c : Command) (rest : List Command), Executable s c rest →
    (c.a.length = 16 → s.entropy = [] →
      exec .skgen s = .next { s with engine := .stalled (.any 32) }) ∧
    (∀ plain, c.a.length = 16 → plain.length = 32 → s.entropy = [.bytes plain] →
      exec .skgen s = .next { s with
        engine := .stalled (match s.cfg.kePad with | .oaepSha1 => .any 20 | .pkcs1V15 => .nonzero 77) }) ∧
    (c.b.length = 32 → s.entropy = [] →
      exec .penc s = .next { s with engine := .stalled (.any 3) }) ∧
    (∀ nb eb k, hexDecode c.b = some nb → hexDecode c.c = some eb → 0 < os2ip eb →
      256 ^ (k - 1) ≤ os2ip nb → os2ip nb < 256 ^ k → c.a.length + 11 ≤ k → s.entropy = [] →
      exec .credenc s = .next { s with engine := .stalled (.nonzero (k - c.a.length - 3)) })

/-- Rule R207: an operand over OPERAND_MAX, an ignored one too, ends every legal command with
`ERR_LENGTH`; with an unbounded OPERAND_MAX no operand is over it. -/
def Obligations.OperandLimitIsChecked : Prop :=
  (∀ (i : Instr) (s : State) (c : Command) (rest : List Command) (m : Nat),
    s.pending = c :: rest → s.fatal = false → s.tblValid = true → s.cfg.operandMax = some m →
    (m < c.a.length ∨ m < c.b.length ∨ m < c.c.length) →
    exec i s = .next (rejected s c rest .errLength 0)) ∧
  ∀ (cfg : Cfg) (c : Command), cfg.operandMax = none → operandTooLong cfg c = false

/-- Rule R200: the codes, and the class nibble of each. -/
def Obligations.StatusCodesAndClasses : Prop :=
  [Status.ok, .errIllegal, .errLength, .errHex, .errKey, .errTooLarge, .errFrame, .errPadding, .errRng,
      .errUnavailable, .errConfig, .errHalted].map Status.code =
    [0x00, 0x01, 0x10, 0x11, 0x12, 0x13, 0x20, 0x21, 0x30, 0x31, 0x32, 0x3F] ∧
  ∀ st : Status, st.code.toNat / 16 = st.classNibble.toNat

/-- Rules R60, R209 and R210: an executed command either holds, which changes nothing but what occupies
the engine, or ends with exactly one response, to its own host; besides the response only FATAL, its cause
and a first part of the entropy source's answers may differ. -/
def Obligations.EveryExecutionHoldsOrAnswersOnce : Prop :=
  ∀ (i : Instr) (s t : State) (c : Command) (rest : List Command),
    s.pending = c :: rest → exec i s = .next t →
    (∃ e, t = { s with engine := e }) ∨
    ∃ r f cause used q,
      s.entropy = used ++ q ∧
      t = { s with
        pending := rest, engine := .free, delivered := s.delivered ++ [{ host := c.host, response := r }],
        fatal := f, fatalCause := cause, entropy := q }

/-- Rules R201, R202 and R203: an error other than `ERR_RNG` leaves the state before the command, its
response apart, and takes no draw. -/
def Obligations.ErrorsArePreciseAndDrawNothing : Prop :=
  ∀ (i : Instr) (s t : State) (c : Command) (rest : List Command) (r : Response),
    s.pending = c :: rest → exec i s = .next t →
    t.delivered = s.delivered ++ [{ host := c.host, response := r }] →
    r.status ≠ .ok → r.status ≠ .errRng →
    r.out = [] ∧ t = rejected s c rest r.status r.result

/-- Rule R204: the integrity errors, which are the statuses of class nibble 2, are raised only by `pdec`. -/
def Obligations.IntegrityErrorsOnlyFromPdec : Prop :=
  ∀ (i : Instr) (s t : State) (c : Command) (rest : List Command) (r : Response),
    s.pending = c :: rest → exec i s = .next t →
    t.delivered = s.delivered ++ [{ host := c.host, response := r }] →
    r.status.code.toNat / 16 = 2 → i = .pdec

/-- Rules R200, R201, R206 and R208: a step from a state of the invariant keeps every response complete: a
success, or an error without output, never `ERR_CONFIG` or `ERR_UNAVAILABLE`. -/
def Obligations.ResponsesStayComplete : Prop :=
  ∀ s t : State, Inv s → ResponsesComplete s → step s = .next t → ResponsesComplete t

/-! ### Invariants and safety -/

/-- Rules R26, R27, R31, R60 and R232: every step keeps the invariant. -/
def Obligations.EveryStepKeepsTheInvariant : Prop :=
  ∀ s t : State, Inv s → step s = .next t → Inv t

/-- Every reset, of any instance and from any state, leads to a state of the invariant, and so does the
power-on reset of the model's chosen instance (notes/assumptions/1.md), with no response delivered. -/
def Obligations.ResetEstablishesTheInvariant : Prop :=
  (∀ s : State, Inv (resetBlock s)) ∧ Inv State.reset ∧ ResponsesComplete State.reset

/-- Rules R41, R101, R134 and R238: from a state of the invariant no step faults, so no command reads an
entry without a value and no RSA input is out of range; a step is refused only where a host that has a
command outstanding issues a second one. -/
def Obligations.NoStepFaults : Prop :=
  ∀ s : State, Inv s →
    (∀ f, step s ≠ .fault f) ∧
    ∀ r, step s = .refused r →
      ∃ c l, s.schedule = .issue c :: l ∧ r = .secondCommand c.host ∧ ∃ d ∈ s.pending, d.host = c.host

/-- Rules R9, R28 and R215: no step changes the configuration or the parameter RNG_LIVE. -/
def Obligations.ConfigurationIsFixed : Prop :=
  ∀ s t : State, step s = .next t → t.cfg = s.cfg ∧ t.rngLive = s.rngLive

/-- Rules R41 and R215: only a generator step or a reset writes CRC_TABLE, GEN_IDX or TBL_VALID: whenever
the turn taken is another one, by the schedule or chosen where the schedule is empty, every entry reads as
before. -/
def Obligations.OnlyGeneratorAndResetWriteTheTable : Prop :=
  ∀ s t : State, (nextTurn s).1 ≠ .generator → (nextTurn s).1 ≠ .reset → step s = .next t →
    (∀ i, CrcTable.read t.table i = CrcTable.read s.table i) ∧
      t.genIdx = s.genIdx ∧ t.tblValid = s.tblValid

/-- Rules R29, R46 and R48: what a command does depends only on its operands, its draws, the table, CFG,
FATAL with its cause, and TBL_VALID: in two states that agree on these, the same command gets the same
response and leaves the same draws, whoever issued it and whatever ran before. -/
def Obligations.ResponseDependsOnlyOnItsInputs : Prop :=
  ∀ (i : Instr) (s s' t : State) (c c' : Command) (rest rest' : List Command) (r : Response),
    s.pending = c :: rest → s'.pending = c' :: rest' →
    c.a = c'.a → c.b = c'.b → c.c = c'.c → s.entropy = s'.entropy →
    (∀ j, CrcTable.read s.table j = CrcTable.read s'.table j) → s.cfg = s'.cfg → s.fatal = s'.fatal →
    s.fatalCause = s'.fatalCause → s.tblValid = s'.tblValid →
    exec i s = .next t → t.delivered = s.delivered ++ [{ host := c.host, response := r }] →
    ∃ t', exec i s' = .next t' ∧
      t'.delivered = s'.delivered ++ [{ host := c'.host, response := r }] ∧ t'.entropy = t.entropy ∧
      t'.fatal = t.fatal

/-- Rules R60 and R238: an issue captures the command and changes nothing else; a second command of a host
that has one outstanding is refused. That the command stands behind those outstanding, in a list of which
the engine takes the first, is the model's choice (DESIGN CHOICE, notes/assumptions/19.md). -/
def Obligations.IssueCapturesTheCommand : Prop :=
  ∀ (s : State) (c : Command) (l : List Turn), s.powered = true → s.schedule = .issue c :: l →
    ((∀ d ∈ s.pending, d.host ≠ c.host) →
      step s = .next { s with schedule := l, pending := s.pending ++ [c] }) ∧
    ((∃ d ∈ s.pending, d.host = c.host) → step s = .refused (.secondCommand c.host))

/-- The arbitrate turn, by which the model makes the order between hosts free as rule R48 says, is the
model's own (DESIGN CHOICE, notes/assumptions/19.md): taking up a host's command puts it first among the
outstanding ones and changes nothing else, and does nothing while a held command occupies the engine (rule
R31; the record of the occupation is DESIGN CHOICE, notes/assumptions/7.md). -/
def Obligations.ArbitrationReordersUnlessOccupied : Prop :=
  ∀ (s : State) (h : Nat) (l : List Turn), s.powered = true → s.schedule = .arbitrate h :: l →
    ∃ p, step s = .next { s with schedule := l, pending := p } ∧ p.Perm s.pending ∧
      (s.engine ≠ .free → p = s.pending) ∧
      (s.engine = .free → (∃ d ∈ s.pending, d.host = h) → p.head?.map (fun d => d.host) = some h)

/-- Rule R30: what the entropy source answers to a stalled draw is EXHAUSTED or an answer of the length asked
for, without a zero byte for `DrawNZ`. That a turn of the source gives this answer of its own accord, a free
value counted by `drawCount`, is the model's own (DESIGN CHOICE, notes/assumptions/6.md), and so are the queue
behind which it goes (DESIGN CHOICE, notes/assumptions/5.md) and the record that the engine may try again
(DESIGN CHOICE, notes/assumptions/7.md); no other field changes. -/
def Obligations.SourceAnswersTheStalledDraw : Prop :=
  ∀ (s : State) (req : DrawReq) (l : List Turn),
    s.powered = true → s.schedule = .source :: l → s.engine = .stalled req →
    ∃ a,
      step s = .next { s with
        schedule := l, entropy := s.entropy ++ [a], drawCount := s.drawCount + 1, engine := .resumed } ∧
      (a = .exhausted ∨
        ∃ v, a = .bytes v ∧
          match req with
          | .any n => v.length = n
          | .nonzero n => v.length = n ∧ ∀ b ∈ v, b ≠ 0)

/-- Rules R30 and R238: an answer that the platform supplies, bytes or EXHAUSTED, goes behind the answers
that are ready already, an engine stalled on a draw may try again, and nothing else changes. The queue of
ready answers and the record of the stall are the model's own (DESIGN CHOICE, notes/assumptions/5.md and
7.md). -/
def Obligations.SuppliedAnswersQueueUp : Prop :=
  ∀ (s : State) (a : Answer) (l : List Turn), s.powered = true → s.schedule = .entropy a :: l →
    (∀ req, s.engine = .stalled req →
      step s = .next { s with schedule := l, entropy := s.entropy ++ [a], engine := .resumed }) ∧
    ((∀ req, s.engine ≠ .stalled req) →
      step s = .next { s with schedule := l, entropy := s.entropy ++ [a] })

/-- Rules R31, R233 and R237, for the model's choice of turns: with a live entropy source and nothing
scheduled, the first outstanding command is eventually answered: some number of steps leads to a state
that differs in the delivered responses by one response to its host, with the others still outstanding.
The order of the turns, the source's answer to a stalled draw in its next turn among it, is chooseTurn's
(DESIGN CHOICE, notes/assumptions/4.md). -/
def Obligations.EveryCommandIsEventuallyAnswered : Prop :=
  ∀ (s : State) (c : Command) (rest : List Command),
    Inv s → s.schedule = [] → s.rngLive = true → s.pending = c :: rest →
    ∃ k t r, Leads k s t ∧ t.pending = rest ∧
      t.delivered = s.delivered ++ [{ host := c.host, response := r }]

/-- Rules R237 and R239, for the model's choice of turns (chooseTurn, DESIGN CHOICE,
notes/assumptions/4.md): with a live entropy source, nothing scheduled and no command dropped by a reset,
the run ends: every outstanding command gets one response, and none is outstanding or holding at its
end. -/
def Obligations.LiveRunsEnd : Prop :=
  ∀ s : State, Inv s → s.schedule = [] → s.rngLive = true → s.dropped = [] →
    ∃ k t, Leads k s t ∧ Ended t ∧
      t.delivered.map (fun d => d.host) =
        s.delivered.map (fun d => d.host) ++ s.pending.map (fun c => c.host)

/-! ### CRC32 and TBLRD -/

/-- Rule R83: `crc32` runs the spec's loop over the generated entries and answers its complement, for every
length. -/
def Obligations.Crc32RunsTheTableLoop : Prop :=
  ∀ (s : State) (c : Command) (rest : List Command), TableInv s → Executable s c rest →
    exec .crc32 s = .next (completed s c rest (~~~ (tableCrc 0xFFFFFFFF c.a)) [] s.entropy)

/-- Rules R17, R81 and R83: the table-driven checksum is the table-free one: on every input, `crc32`
answers the complement of the bit-by-bit division of the reflected input. -/
def Obligations.Crc32IsTheReflectedPolynomialDivision : Prop :=
  ∀ (s : State) (c : Command) (rest : List Command), TableInv s → Executable s c rest →
    exec .crc32 s = .next (completed s c rest (~~~ (tableFreeCrc 0xFFFFFFFF c.a)) [] s.entropy)

/-- Rules R82 and R84: `tblrd i` answers the listed entry for every index the encoding admits. An index
beyond it, which no word encodes, names no entry (rule R41 leaves the read undefined); that the model
faults there with `tableNoValue` is its own (DEDUCED, notes/assumptions/2.md). -/
def Obligations.TblrdReadsTheListedEntry : Prop :=
  ∀ (s : State) (c : Command) (rest : List Command) (idx : Nat), TableInv s → Executable s c rest →
    (∀ v, listedTable[idx]? = some v →
      exec (.tblrd idx) s = .next (completed s c rest v [] s.entropy)) ∧
    (256 ≤ idx → exec (.tblrd idx) s = .fault (.tableNoValue idx))

/-! ### SKGEN -/

/-- Rules R101 and R102: with `KE_PAD = OAEP_SHA1`, a server key that passes the reset check, a 16-byte nonce and two
answered draws, `skgen` answers `plain` followed by the 128 bytes of the RSA encryption of the OAEP encoding
of `plain || nonce`. -/
def Obligations.SkgenEncapsulatesWithOaep : Prop :=
  ∀ (s : State) (c : Command) (rest : List Command) (plain seed : Bytes) (q : List Answer),
    Executable s c rest → c.a.length = 16 → s.cfg.kePad = .oaepSha1 →
    256 ^ 127 ≤ s.cfg.serverN.toNat → 1 ≤ s.cfg.serverE.toNat →
    s.entropy = .bytes plain :: .bytes seed :: q → plain.length = 32 → seed.length = 20 →
    exec .skgen s = .next (completed s c rest 0
      (plain ++ i2osp (os2ip (emeOaepSha1 128 (plain ++ c.a) seed) ^ s.cfg.serverE.toNat
        % s.cfg.serverN.toNat) 128) q)

/-- Rules R101 and R102: the same with `KE_PAD = PKCS1_V15` and 77 drawn nonzero bytes. -/
def Obligations.SkgenEncapsulatesWithPkcs1 : Prop :=
  ∀ (s : State) (c : Command) (rest : List Command) (plain ps : Bytes) (q : List Answer),
    Executable s c rest → c.a.length = 16 → s.cfg.kePad = .pkcs1V15 →
    256 ^ 127 ≤ s.cfg.serverN.toNat → 1 ≤ s.cfg.serverE.toNat →
    s.entropy = .bytes plain :: .bytes ps :: q → plain.length = 32 → ps.length = 77 →
    (∀ b ∈ ps, b ≠ 0) →
    exec .skgen s = .next (completed s c rest 0
      (plain ++ i2osp (os2ip ([0x00, 0x02] ++ ps ++ [0x00] ++ plain ++ c.a) ^ s.cfg.serverE.toNat
        % s.cfg.serverN.toNat) 128) q)

/-- Rules R101, R102 and R203: a nonce of another length than 16 is `ERR_LENGTH` without a draw, and every
success is 160 bytes that begin with the 32 drawn ones: the first entry of the source's queue that answers
the draw. That an entry of another length is passed over is the model's (DESIGN CHOICE,
notes/assumptions/5.md). -/
def Obligations.SkgenChecksTheNonceAndAnswers160Bytes : Prop :=
  ∀ (s : State) (c : Command) (rest : List Command), Executable s c rest →
    (c.a.length ≠ 16 → exec .skgen s = .next (rejected s c rest .errLength 0)) ∧
    ∀ result out q, exec .skgen s = .next (completed s c rest result out q) →
      result = 0 ∧ out.length = 160 ∧
        ∃ skipped rest', s.entropy = skipped ++ .bytes (out.take 32) :: rest' ∧
          ∀ a ∈ skipped, ∃ v, a = .bytes v ∧ v.length ≠ 32

/-! ### PENC and PDEC -/

/-- Rules R110 and R113: with a 32-byte key and a drawn `r`, `penc` answers the ECB encryption of the derived
IV followed by the CBC encryption of the padded plaintext under that IV. -/
def Obligations.PencAnswersTheFrame : Prop :=
  ∀ (s : State) (c : Command) (rest : List Command) (r : Bytes) (q : List Answer),
    Executable s c rest → c.b.length = 32 → s.entropy = .bytes r :: q → r.length = 3 →
    let iv := (hmacSha1 (c.b.take 16) (r ++ c.a)).take 13 ++ r
    exec .penc s = .next (completed s c rest 0
      (aes256Enc c.b iv ++
        cbcEnc c.b iv (c.a ++ List.replicate (16 - c.a.length % 16)
          (BitVec.ofNat 8 (16 - c.a.length % 16)))) q)

/-- Rules R113 to R115: the checks of `penc` and `pdec` in their order: the key length, the frame length, the
padding. -/
def Obligations.PayloadChecksInOrder : Prop :=
  ∀ (s : State) (c : Command) (rest : List Command), Executable s c rest →
    (c.b.length ≠ 32 → exec .penc s = .next (rejected s c rest .errLength 0) ∧
      exec .pdec s = .next (rejected s c rest .errLength 0)) ∧
    (c.b.length = 32 → (c.a.length < 16 ∨ (c.a.length - 16) % 16 ≠ 0 ∨ c.a.length = 16) →
      exec .pdec s = .next (rejected s c rest .errFrame 0)) ∧
    (c.b.length = 32 → 32 ≤ c.a.length → c.a.length % 16 = 0 →
      unpad16 (cbcDec c.b (aes256Dec c.b (c.a.take 16)) (c.a.drop 16)) = none →
      exec .pdec s = .next (rejected s c rest .errPadding 0))

/-- Rule R114: with a 32-byte key, a frame of at least one ciphertext block and valid padding, `pdec` answers
the unpadded CBC decryption under the recovered IV, and takes no draw. -/
def Obligations.PdecAnswersThePlaintext : Prop :=
  ∀ (s : State) (c : Command) (rest : List Command) (p : Bytes), Executable s c rest →
    c.b.length = 32 → 32 ≤ c.a.length → c.a.length % 16 = 0 →
    unpad16 (cbcDec c.b (aes256Dec c.b (c.a.take 16)) (c.a.drop 16)) = some p →
    exec .pdec s = .next (completed s c rest 0 p s.entropy)

/-- Rule R117: the length of OUT of a successful `penc`, and the bounds on that of a successful `pdec`. -/
def Obligations.PayloadOutputLengths : Prop :=
  ∀ (s : State) (c : Command) (rest : List Command) (result : Word) (out : Bytes) (q : List Answer),
    Executable s c rest →
    (exec .penc s = .next (completed s c rest result out q) →
      out.length = 16 * (c.a.length / 16 + 2)) ∧
    (exec .pdec s = .next (completed s c rest result out q) →
      c.a.length - 32 ≤ out.length ∧ out.length + 17 ≤ c.a.length)

/-- Rule R116: what `penc` answers with OK, `pdec` with the same key turns back into the plaintext, in any
state that executes it and whatever bytes were drawn. -/
def Obligations.PdecUndoesPenc : Prop :=
  ∀ (s s' : State) (c c' : Command) (rest rest' : List Command) (result : Word) (frame : Bytes)
    (q : List Answer),
    Executable s c rest → exec .penc s = .next (completed s c rest result frame q) →
    Executable s' c' rest' → c'.a = frame → c'.b = c.b →
    exec .pdec s' = .next (completed s' c' rest' 0 c.a s'.entropy)

/-- Rule R143: AES-256 decryption and encryption undo each other under every 32-byte key, on 16-byte
blocks that they turn into 16-byte blocks, so each is a permutation of the blocks; and the vector of
FIPS-197 Appendix C.3. -/
def Obligations.AesDecryptionInvertsEncryption : Prop :=
  (∀ k x : Bytes, k.length = 32 → x.length = 16 →
    (aes256Enc k x).length = 16 ∧ (aes256Dec k x).length = 16 ∧
      aes256Dec k (aes256Enc k x) = x ∧ aes256Enc k (aes256Dec k x) = x) ∧
  aes256Enc (i2osp 0x000102030405060708090a0b0c0d0e0f101112131415161718191a1b1c1d1e1f 32)
      (i2osp 0x00112233445566778899aabbccddeeff 16) =
    i2osp 0x8ea2b7ca516745bfeafc49904b496089 16

/-- Rule R151: CBC decryption undoes CBC encryption, and a plaintext block depends only on its own and the
preceding ciphertext block. -/
def Obligations.CbcDecryptionInvertsEncryption : Prop :=
  (∀ k iv q : Bytes, k.length = 32 → iv.length = 16 → q.length % 16 = 0 →
    cbcDec k iv (cbcEnc k iv q) = q) ∧
  ∀ (k iv ct : Bytes) (j : Nat), k.length = 32 → iv.length = 16 → ct.length % 16 = 0 →
    16 * (j + 1) ≤ ct.length →
    slice (cbcDec k iv ct) (16 * j) (16 * j + 16) =
      xorBytes (aes256Dec k (slice ct (16 * j) (16 * j + 16)))
        (if j = 0 then iv else slice ct (16 * j - 16) (16 * j))

/-- Rules R152 and R153: unpadding undoes padding, and accepts exactly the whole numbers of blocks that end
in `p` bytes of value `p` for some `p` in 1..16. -/
def Obligations.UnpadAcceptsExactlyThePadded : Prop :=
  (∀ p : Bytes, unpad16 (pad16 p) = some p) ∧
  ∀ q x : Bytes, unpad16 q = some x ↔
    q.length % 16 = 0 ∧ ∃ p, 1 ≤ p ∧ p ≤ 16 ∧ q = x ++ List.replicate p (BitVec.ofNat 8 p)

/-- Rule R144: SBOX is the affine transform of the inverse `a^254` in GF(2^8), and INV_SBOX undoes it. -/
def Obligations.SboxIsTheAffineInverse : Prop :=
  ∀ a : Byte,
    (let b := (gmul a)^[254] 1
     sbox a = b ^^^ b.rotateLeft 1 ^^^ b.rotateLeft 2 ^^^ b.rotateLeft 3 ^^^ b.rotateLeft 4 ^^^ 0x63) ∧
    invSbox (sbox a) = a

/-! ### SHA-1 and HMAC -/

/-- Rule R163: the three check values of SHA-1. -/
def Obligations.Sha1CheckValues : Prop :=
  sha1 [] = i2osp 0xda39a3ee5e6b4b0d3255bfef95601890afd80709 20 ∧
  sha1 (i2osp 0x616263 3) = i2osp 0xa9993e364706816aba3e25717850c26c9cd0d89d 20 ∧
  sha1 (i2osp 0x6162636462636465636465666465666765666768666768696768696a68696a6b696a6b6c6a6b6c6d6b6c6d6e6c6d6e6f6d6e6f706e6f7071 56) =
    i2osp 0x84983e441c3bd26ebaae4aa1f95129e5e54670f1 20

/-- Rule R160: the padded message is a whole number of 64-byte blocks that begins with the message, and the
number of zero bytes is the least possible. -/
def Obligations.Sha1PaddingFillsBlocks : Prop :=
  ∀ m : Bytes,
    (sha1Pad m).length % 64 = 0 ∧ (sha1Pad m).take m.length = m ∧
    ∃ z, z < 64 ∧
      sha1Pad m = m ++ [0x80] ++ List.replicate z 0x00 ++ i2osp (8 * m.length) 8 ∧
      ∀ z', (m.length + 1 + z' + 8) % 64 = 0 → z ≤ z'

/-- Rules R110, R160 and R164: a digest and an HMAC are 20 bytes, and the derived IV is 16 bytes, the
first 13 of the HMAC of `r` and the plaintext under the key's first 16 bytes and then `r`, so it depends
on no other byte of the key. -/
def Obligations.DerivedIvIsDigestThenDraw : Prop :=
  (∀ m : Bytes, (sha1 m).length = 20) ∧ (∀ k m : Bytes, (hmacSha1 k m).length = 20) ∧
  ∀ k k' r p : Bytes, r.length = 3 → k.take 16 = k'.take 16 →
    (hmacIv k r p).length = 16 ∧
      (hmacIv k r p).take 13 = (hmacSha1 (k.take 16) (r ++ p)).take 13 ∧
      (hmacIv k r p).drop 13 = r ∧ hmacIv k r p = hmacIv k' r p

/-! ### RSA, hex and base64 -/

/-- Rule R13: OS2IP is the big-endian sum, I2OSP its inverse on `k` bytes, and the octet length the least
`k` with `n < 256^k`. -/
def Obligations.OctetStringsAndIntegers : Prop :=
  (∀ x : Bytes, os2ip x =
    ∑ i ∈ Finset.range x.length, (x.getD i 0).toNat * 256 ^ (x.length - 1 - i)) ∧
  (∀ v k : Nat, v < 256 ^ k → (i2osp v k).length = k ∧ os2ip (i2osp v k) = v) ∧
  ∀ n k : Nat, n < 256 ^ k ↔ octlen n ≤ k

/-- Rule R170: the square-and-multiply of the RSA unit is the modular power. -/
def Obligations.RsaepIsTheModularPower : Prop :=
  ∀ n e m : Nat, 1 ≤ n → 1 ≤ e → m < n → rsaep n e m = m ^ e % n ∧ rsaep n e m < n

/-- Rule R174: the OAEP encoding has `k` bytes, begins with 0x00, and gives back its seed and a data block
of the empty label's hash, zeros, 0x01 and the message. -/
def Obligations.OaepEncodingCanBeOpened : Prop :=
  ∀ (k : Nat) (m seed : Bytes), m.length + 42 ≤ k → seed.length = 20 →
    (emeOaepSha1 k m seed).length = k ∧ (emeOaepSha1 k m seed).head? = some 0x00 ∧
    oaepOpen (emeOaepSha1 k m seed) =
      (seed, sha1 [] ++ List.replicate (k - m.length - 42) 0x00 ++ [0x01] ++ m)

/-- Rules R131 to R133: with hex texts of a modulus of `k` octets and a nonzero exponent, a secret of at most
`k − 11` bytes and drawn nonzero padding, `credenc` answers the base64 text of the `k`-byte RSA encryption
of the PKCS#1 v1.5 encoding, under the command's own key. -/
def Obligations.CredencAnswersTheEncryptedSecret : Prop :=
  ∀ (s : State) (c : Command) (rest : List Command) (nb eb ps : Bytes) (k : Nat) (q : List Answer),
    Executable s c rest → hexDecode c.b = some nb → hexDecode c.c = some eb → 0 < os2ip eb →
    256 ^ (k - 1) ≤ os2ip nb → os2ip nb < 256 ^ k → c.a.length + 11 ≤ k →
    s.entropy = .bytes ps :: q → ps.length = k - c.a.length - 3 → (∀ b ∈ ps, b ≠ 0) →
    exec .credenc s = .next (completed s c rest 0
      (base64 (i2osp (os2ip ([0x00, 0x02] ++ ps ++ [0x00] ++ c.a) ^ os2ip eb % os2ip nb) k)) q)

/-- Rule R131: the errors of `credenc` in their order: malformed hex, a zero modulus or exponent, a secret
over `k − 11` bytes; none of them takes a draw. -/
def Obligations.CredencChecksInOrder : Prop :=
  ∀ (s : State) (c : Command) (rest : List Command), Executable s c rest →
    (hexDecode c.b = none ∨ hexDecode c.c = none →
      exec .credenc s = .next (rejected s c rest .errHex 0)) ∧
    ∀ nb eb, hexDecode c.b = some nb → hexDecode c.c = some eb →
      (os2ip nb = 0 ∨ os2ip eb = 0 → exec .credenc s = .next (rejected s c rest .errKey 0)) ∧
      (0 < os2ip nb → 0 < os2ip eb → os2ip nb < 256 ^ (c.a.length + 10) →
        exec .credenc s = .next (rejected s c rest .errTooLarge 0))

/-- Rules R103 and R134: `credenc` uses neither KE_PAD nor the server key: an instance that differs only in
these does the same, every field but CFG alike. -/
def Obligations.CredencUsesNoServerKey : Prop :=
  ∀ (s t : State) (pad : KePad) (n e : BitVec 1024), exec .credenc s = .next t →
    exec .credenc { s with cfg := { s.cfg with kePad := pad, serverN := n, serverE := e } } =
      .next { t with cfg := { t.cfg with kePad := pad, serverN := n, serverE := e } }

/-- Rule R185: a text decodes exactly when its length is even and every character is a hex digit of either
case; and then it has two characters for each byte, the digits of the byte's high and low halves, in any mix
of cases. -/
def Obligations.HexDecodesDigitPairs : Prop :=
  ∀ s : Bytes,
    ((∃ y, hexDecode s = some y) ↔
      s.length % 2 = 0 ∧ ∀ ch ∈ s, ∃ n, n < 16 ∧ (ch = lowerHex n ∨ ch = upperHex n)) ∧
    ∀ y, hexDecode s = some y →
      s.length = 2 * y.length ∧
        ∀ j b, y[j]? = some b →
          ∃ hi lo, s[2 * j]? = some hi ∧ s[2 * j + 1]? = some lo ∧
            (hi = lowerHex (b.toNat / 16) ∨ hi = upperHex (b.toNat / 16)) ∧
            (lo = lowerHex (b.toNat % 16) ∨ lo = upperHex (b.toNat % 16))

/-- Rules R133 and R187: a base64 text has four characters for each three bytes begun, and reads back as the
bytes it encodes. -/
def Obligations.Base64ReadsBack : Prop :=
  ∀ x : Bytes, (base64 x).length = 4 * ((x.length + 2) / 3) ∧ base64Read (base64 x) = x

/-! ### The host's notation -/

/-- Rules R64, R66 and R67: each pseudo-instruction assembles to one command, with the word of rule R64
and its operands in their slots, the omitted slots empty. The bytes of the credential's text are those
that `utf8Point` gives (RFC 3629, PRESUMED, notes/assumptions/20.md). -/
def Obligations.PseudoInstructionsAssemble : Prop :=
  ∀ (env : List (String × Bytes)) (h : Nat) (x y : Literal) (bx bK : Bytes) (text : List Nat)
    (m e : Bytes),
    literalBytes env x = some bx → literalBytes env y = some bK →
    assembleStatement env h (expandPseudo (.checksum x)) = some ⟨h, 0x00000001, bx, [], []⟩ ∧
    assembleStatement env h (expandPseudo (.sessionkey x)) = some ⟨h, 0x00000010, bx, [], []⟩ ∧
    assembleStatement env h (expandPseudo (.encrypt x y)) = some ⟨h, 0x00000020, bx, bK, []⟩ ∧
    assembleStatement env h (expandPseudo (.decrypt x y)) = some ⟨h, 0x00000021, bx, bK, []⟩ ∧
    assembleStatement env h (expandPseudo (.credential text m e)) =
      some ⟨h, 0x00000030, text.flatMap utf8Point, m, e⟩
end

