-- ==== Sys2Proof/Laws/State.lean ====
section
/-! SUPPORT. Beside the state: what each named update does to each field, so that no later proof unfolds
a record update. -/

namespace Sys2Proof.Machine

/-! ### answer -/

@[simp] theorem answer_table (c : Command) (rest : List Command) (r : Response) (s : State) : (answer c rest r s).table = s.table :=
  rfl

@[simp] theorem answer_genIdx (c : Command) (rest : List Command) (r : Response) (s : State) : (answer c rest r s).genIdx = s.genIdx :=
  rfl

@[simp] theorem answer_tblValid (c : Command) (rest : List Command) (r : Response) (s : State) : (answer c rest r s).tblValid = s.tblValid :=
  rfl

@[simp] theorem answer_fatal (c : Command) (rest : List Command) (r : Response) (s : State) : (answer c rest r s).fatal = s.fatal :=
  rfl

@[simp] theorem answer_fatalCause (c : Command) (rest : List Command) (r : Response) (s : State) : (answer c rest r s).fatalCause = s.fatalCause :=
  rfl

@[simp] theorem answer_cfg (c : Command) (rest : List Command) (r : Response) (s : State) : (answer c rest r s).cfg = s.cfg :=
  rfl

@[simp] theorem answer_powered (c : Command) (rest : List Command) (r : Response) (s : State) : (answer c rest r s).powered = s.powered :=
  rfl

@[simp] theorem answer_pending (c : Command) (rest : List Command) (r : Response) (s : State) : (answer c rest r s).pending = rest :=
  rfl

@[simp] theorem answer_engine (c : Command) (rest : List Command) (r : Response) (s : State) : (answer c rest r s).engine = .free :=
  rfl

@[simp] theorem answer_entropy (c : Command) (rest : List Command) (r : Response) (s : State) : (answer c rest r s).entropy = s.entropy :=
  rfl

@[simp] theorem answer_rngLive (c : Command) (rest : List Command) (r : Response) (s : State) : (answer c rest r s).rngLive = s.rngLive :=
  rfl

@[simp] theorem answer_drawCount (c : Command) (rest : List Command) (r : Response) (s : State) : (answer c rest r s).drawCount = s.drawCount :=
  rfl

@[simp] theorem answer_delivered (c : Command) (rest : List Command) (r : Response) (s : State) : (answer c rest r s).delivered = s.delivered ++ [{ host := c.host, response := r }] :=
  rfl

@[simp] theorem answer_dropped (c : Command) (rest : List Command) (r : Response) (s : State) : (answer c rest r s).dropped = s.dropped :=
  rfl

@[simp] theorem answer_schedule (c : Command) (rest : List Command) (r : Response) (s : State) : (answer c rest r s).schedule = s.schedule :=
  rfl

/-! ### supply -/

@[simp] theorem supply_table (a : Answer) (s : State) : (supply a s).table = s.table :=
  rfl

@[simp] theorem supply_genIdx (a : Answer) (s : State) : (supply a s).genIdx = s.genIdx :=
  rfl

@[simp] theorem supply_tblValid (a : Answer) (s : State) : (supply a s).tblValid = s.tblValid :=
  rfl

@[simp] theorem supply_fatal (a : Answer) (s : State) : (supply a s).fatal = s.fatal :=
  rfl

@[simp] theorem supply_fatalCause (a : Answer) (s : State) : (supply a s).fatalCause = s.fatalCause :=
  rfl

@[simp] theorem supply_cfg (a : Answer) (s : State) : (supply a s).cfg = s.cfg :=
  rfl

@[simp] theorem supply_powered (a : Answer) (s : State) : (supply a s).powered = s.powered :=
  rfl

@[simp] theorem supply_pending (a : Answer) (s : State) : (supply a s).pending = s.pending :=
  rfl

@[simp] theorem supply_engine (a : Answer) (s : State) : (supply a s).engine = resume s.engine :=
  rfl

@[simp] theorem supply_entropy (a : Answer) (s : State) : (supply a s).entropy = s.entropy ++ [a] :=
  rfl

@[simp] theorem supply_rngLive (a : Answer) (s : State) : (supply a s).rngLive = s.rngLive :=
  rfl

@[simp] theorem supply_drawCount (a : Answer) (s : State) : (supply a s).drawCount = s.drawCount :=
  rfl

@[simp] theorem supply_delivered (a : Answer) (s : State) : (supply a s).delivered = s.delivered :=
  rfl

@[simp] theorem supply_dropped (a : Answer) (s : State) : (supply a s).dropped = s.dropped :=
  rfl

@[simp] theorem supply_schedule (a : Answer) (s : State) : (supply a s).schedule = s.schedule :=
  rfl

/-! ### latchFatal -/

@[simp] theorem latchFatal_table (st : Status) (s : State) : (latchFatal st s).table = s.table := by
  unfold latchFatal; split <;> rfl

@[simp] theorem latchFatal_genIdx (st : Status) (s : State) : (latchFatal st s).genIdx = s.genIdx := by
  unfold latchFatal; split <;> rfl

@[simp] theorem latchFatal_tblValid (st : Status) (s : State) : (latchFatal st s).tblValid = s.tblValid := by
  unfold latchFatal; split <;> rfl

@[simp] theorem latchFatal_cfg (st : Status) (s : State) : (latchFatal st s).cfg = s.cfg := by
  unfold latchFatal; split <;> rfl

@[simp] theorem latchFatal_powered (st : Status) (s : State) : (latchFatal st s).powered = s.powered := by
  unfold latchFatal; split <;> rfl

@[simp] theorem latchFatal_pending (st : Status) (s : State) : (latchFatal st s).pending = s.pending := by
  unfold latchFatal; split <;> rfl

@[simp] theorem latchFatal_engine (st : Status) (s : State) : (latchFatal st s).engine = s.engine := by
  unfold latchFatal; split <;> rfl

@[simp] theorem latchFatal_entropy (st : Status) (s : State) : (latchFatal st s).entropy = s.entropy := by
  unfold latchFatal; split <;> rfl

@[simp] theorem latchFatal_rngLive (st : Status) (s : State) : (latchFatal st s).rngLive = s.rngLive := by
  unfold latchFatal; split <;> rfl

@[simp] theorem latchFatal_drawCount (st : Status) (s : State) : (latchFatal st s).drawCount = s.drawCount := by
  unfold latchFatal; split <;> rfl

@[simp] theorem latchFatal_delivered (st : Status) (s : State) : (latchFatal st s).delivered = s.delivered := by
  unfold latchFatal; split <;> rfl

@[simp] theorem latchFatal_dropped (st : Status) (s : State) : (latchFatal st s).dropped = s.dropped := by
  unfold latchFatal; split <;> rfl

@[simp] theorem latchFatal_schedule (st : Status) (s : State) : (latchFatal st s).schedule = s.schedule := by
  unfold latchFatal; split <;> rfl

theorem latchFatal_of_not_setsFatal {st : Status} (h : st.setsFatal = false) (s : State) :
    latchFatal st s = s := by
  simp [latchFatal, h]

theorem latchFatal_of_fatal {s : State} (h : s.fatal = true) (st : Status) : latchFatal st s = s := by
  simp [latchFatal, h]

theorem latchFatal_of_setsFatal {st : Status} {s : State} (h : st.setsFatal = true)
    (hs : s.fatal = false) : latchFatal st s = { s with fatal := true, fatalCause := st.code } := by
  simp [latchFatal, h, hs]

/-! ### raise -/

@[simp] theorem raise_table (st : Status) (c : Command) (rest : List Command) (s : State) :
    (raise st c rest s).table = s.table :=
  latchFatal_table st s

@[simp] theorem raise_genIdx (st : Status) (c : Command) (rest : List Command) (s : State) :
    (raise st c rest s).genIdx = s.genIdx :=
  latchFatal_genIdx st s

@[simp] theorem raise_tblValid (st : Status) (c : Command) (rest : List Command) (s : State) :
    (raise st c rest s).tblValid = s.tblValid :=
  latchFatal_tblValid st s

@[simp] theorem raise_cfg (st : Status) (c : Command) (rest : List Command) (s : State) :
    (raise st c rest s).cfg = s.cfg :=
  latchFatal_cfg st s

@[simp] theorem raise_powered (st : Status) (c : Command) (rest : List Command) (s : State) :
    (raise st c rest s).powered = s.powered :=
  latchFatal_powered st s

@[simp] theorem raise_pending (st : Status) (c : Command) (rest : List Command) (s : State) :
    (raise st c rest s).pending = rest :=
  rfl

@[simp] theorem raise_engine (st : Status) (c : Command) (rest : List Command) (s : State) :
    (raise st c rest s).engine = .free :=
  rfl

@[simp] theorem raise_entropy (st : Status) (c : Command) (rest : List Command) (s : State) :
    (raise st c rest s).entropy = s.entropy :=
  latchFatal_entropy st s

@[simp] theorem raise_rngLive (st : Status) (c : Command) (rest : List Command) (s : State) :
    (raise st c rest s).rngLive = s.rngLive :=
  latchFatal_rngLive st s

@[simp] theorem raise_drawCount (st : Status) (c : Command) (rest : List Command) (s : State) :
    (raise st c rest s).drawCount = s.drawCount :=
  latchFatal_drawCount st s

@[simp] theorem raise_dropped (st : Status) (c : Command) (rest : List Command) (s : State) :
    (raise st c rest s).dropped = s.dropped :=
  latchFatal_dropped st s

@[simp] theorem raise_schedule (st : Status) (c : Command) (rest : List Command) (s : State) :
    (raise st c rest s).schedule = s.schedule :=
  latchFatal_schedule st s

/-! ### genStep -/

@[simp] theorem genStep_fatal (s : State) : (genStep s).fatal = s.fatal := by
  unfold genStep; split <;> rfl

@[simp] theorem genStep_fatalCause (s : State) : (genStep s).fatalCause = s.fatalCause := by
  unfold genStep; split <;> rfl

@[simp] theorem genStep_cfg (s : State) : (genStep s).cfg = s.cfg := by
  unfold genStep; split <;> rfl

@[simp] theorem genStep_powered (s : State) : (genStep s).powered = s.powered := by
  unfold genStep; split <;> rfl

@[simp] theorem genStep_pending (s : State) : (genStep s).pending = s.pending := by
  unfold genStep; split <;> rfl

@[simp] theorem genStep_engine (s : State) : (genStep s).engine = s.engine := by
  unfold genStep; split <;> rfl

@[simp] theorem genStep_entropy (s : State) : (genStep s).entropy = s.entropy := by
  unfold genStep; split <;> rfl

@[simp] theorem genStep_rngLive (s : State) : (genStep s).rngLive = s.rngLive := by
  unfold genStep; split <;> rfl

@[simp] theorem genStep_drawCount (s : State) : (genStep s).drawCount = s.drawCount := by
  unfold genStep; split <;> rfl

@[simp] theorem genStep_delivered (s : State) : (genStep s).delivered = s.delivered := by
  unfold genStep; split <;> rfl

@[simp] theorem genStep_dropped (s : State) : (genStep s).dropped = s.dropped := by
  unfold genStep; split <;> rfl

@[simp] theorem genStep_schedule (s : State) : (genStep s).schedule = s.schedule := by
  unfold genStep; split <;> rfl

/-! ### sourceStep -/

@[simp] theorem sourceStep_table (s : State) : (sourceStep s).table = s.table := by
  unfold sourceStep; split <;> rfl

@[simp] theorem sourceStep_genIdx (s : State) : (sourceStep s).genIdx = s.genIdx := by
  unfold sourceStep; split <;> rfl

@[simp] theorem sourceStep_tblValid (s : State) : (sourceStep s).tblValid = s.tblValid := by
  unfold sourceStep; split <;> rfl

@[simp] theorem sourceStep_fatal (s : State) : (sourceStep s).fatal = s.fatal := by
  unfold sourceStep; split <;> rfl

@[simp] theorem sourceStep_fatalCause (s : State) : (sourceStep s).fatalCause = s.fatalCause := by
  unfold sourceStep; split <;> rfl

@[simp] theorem sourceStep_cfg (s : State) : (sourceStep s).cfg = s.cfg := by
  unfold sourceStep; split <;> rfl

@[simp] theorem sourceStep_powered (s : State) : (sourceStep s).powered = s.powered := by
  unfold sourceStep; split <;> rfl

@[simp] theorem sourceStep_pending (s : State) : (sourceStep s).pending = s.pending := by
  unfold sourceStep; split <;> rfl

@[simp] theorem sourceStep_rngLive (s : State) : (sourceStep s).rngLive = s.rngLive := by
  unfold sourceStep; split <;> rfl

@[simp] theorem sourceStep_delivered (s : State) : (sourceStep s).delivered = s.delivered := by
  unfold sourceStep; split <;> rfl

@[simp] theorem sourceStep_dropped (s : State) : (sourceStep s).dropped = s.dropped := by
  unfold sourceStep; split <;> rfl

@[simp] theorem sourceStep_schedule (s : State) : (sourceStep s).schedule = s.schedule := by
  unfold sourceStep; split <;> rfl

/-! ### arbitrate -/

@[simp] theorem arbitrate_table (h : Nat) (s : State) : (arbitrate h s).table = s.table := by
  unfold arbitrate; split <;> rfl

@[simp] theorem arbitrate_genIdx (h : Nat) (s : State) : (arbitrate h s).genIdx = s.genIdx := by
  unfold arbitrate; split <;> rfl

@[simp] theorem arbitrate_tblValid (h : Nat) (s : State) : (arbitrate h s).tblValid = s.tblValid := by
  unfold arbitrate; split <;> rfl

@[simp] theorem arbitrate_fatal (h : Nat) (s : State) : (arbitrate h s).fatal = s.fatal := by
  unfold arbitrate; split <;> rfl

@[simp] theorem arbitrate_fatalCause (h : Nat) (s : State) : (arbitrate h s).fatalCause = s.fatalCause := by
  unfold arbitrate; split <;> rfl

@[simp] theorem arbitrate_cfg (h : Nat) (s : State) : (arbitrate h s).cfg = s.cfg := by
  unfold arbitrate; split <;> rfl

@[simp] theorem arbitrate_powered (h : Nat) (s : State) : (arbitrate h s).powered = s.powered := by
  unfold arbitrate; split <;> rfl

@[simp] theorem arbitrate_engine (h : Nat) (s : State) : (arbitrate h s).engine = s.engine := by
  unfold arbitrate; split <;> rfl

@[simp] theorem arbitrate_entropy (h : Nat) (s : State) : (arbitrate h s).entropy = s.entropy := by
  unfold arbitrate; split <;> rfl

@[simp] theorem arbitrate_rngLive (h : Nat) (s : State) : (arbitrate h s).rngLive = s.rngLive := by
  unfold arbitrate; split <;> rfl

@[simp] theorem arbitrate_drawCount (h : Nat) (s : State) : (arbitrate h s).drawCount = s.drawCount := by
  unfold arbitrate; split <;> rfl

@[simp] theorem arbitrate_delivered (h : Nat) (s : State) : (arbitrate h s).delivered = s.delivered := by
  unfold arbitrate; split <;> rfl

@[simp] theorem arbitrate_dropped (h : Nat) (s : State) : (arbitrate h s).dropped = s.dropped := by
  unfold arbitrate; split <;> rfl

@[simp] theorem arbitrate_schedule (h : Nat) (s : State) : (arbitrate h s).schedule = s.schedule := by
  unfold arbitrate; split <;> rfl

/-! ### resetCheck and resetBlock -/

@[simp] theorem resetCheck_table (s : State) : (resetCheck s).table = s.table := by
  unfold resetCheck; split <;> simp

@[simp] theorem resetCheck_genIdx (s : State) : (resetCheck s).genIdx = s.genIdx := by
  unfold resetCheck; split <;> simp

@[simp] theorem resetCheck_tblValid (s : State) : (resetCheck s).tblValid = s.tblValid := by
  unfold resetCheck; split <;> simp

@[simp] theorem resetCheck_cfg (s : State) : (resetCheck s).cfg = s.cfg := by
  unfold resetCheck; split <;> simp

@[simp] theorem resetCheck_powered (s : State) : (resetCheck s).powered = s.powered := by
  unfold resetCheck; split <;> simp

@[simp] theorem resetCheck_pending (s : State) : (resetCheck s).pending = s.pending := by
  unfold resetCheck; split <;> simp

@[simp] theorem resetCheck_engine (s : State) : (resetCheck s).engine = s.engine := by
  unfold resetCheck; split <;> simp

@[simp] theorem resetCheck_entropy (s : State) : (resetCheck s).entropy = s.entropy := by
  unfold resetCheck; split <;> simp

@[simp] theorem resetCheck_rngLive (s : State) : (resetCheck s).rngLive = s.rngLive := by
  unfold resetCheck; split <;> simp

@[simp] theorem resetCheck_drawCount (s : State) : (resetCheck s).drawCount = s.drawCount := by
  unfold resetCheck; split <;> simp

@[simp] theorem resetCheck_delivered (s : State) : (resetCheck s).delivered = s.delivered := by
  unfold resetCheck; split <;> simp

@[simp] theorem resetCheck_dropped (s : State) : (resetCheck s).dropped = s.dropped := by
  unfold resetCheck; split <;> simp

@[simp] theorem resetCheck_schedule (s : State) : (resetCheck s).schedule = s.schedule := by
  unfold resetCheck; split <;> simp

@[simp] theorem resetBlock_table (s : State) : (resetBlock s).table = [] := by
  simp [resetBlock]

@[simp] theorem resetBlock_genIdx (s : State) : (resetBlock s).genIdx = 0 := by
  simp [resetBlock]

@[simp] theorem resetBlock_tblValid (s : State) : (resetBlock s).tblValid = false := by
  simp [resetBlock]

@[simp] theorem resetBlock_cfg (s : State) : (resetBlock s).cfg = s.cfg := by
  simp [resetBlock]

@[simp] theorem resetBlock_powered (s : State) : (resetBlock s).powered = true := by
  simp [resetBlock]

@[simp] theorem resetBlock_pending (s : State) : (resetBlock s).pending = [] := by
  simp [resetBlock]

@[simp] theorem resetBlock_engine (s : State) : (resetBlock s).engine = .free := by
  simp [resetBlock]

@[simp] theorem resetBlock_entropy (s : State) : (resetBlock s).entropy = s.entropy := by
  simp [resetBlock]

@[simp] theorem resetBlock_rngLive (s : State) : (resetBlock s).rngLive = s.rngLive := by
  simp [resetBlock]

@[simp] theorem resetBlock_drawCount (s : State) : (resetBlock s).drawCount = s.drawCount := by
  simp [resetBlock]

@[simp] theorem resetBlock_delivered (s : State) : (resetBlock s).delivered = s.delivered := by
  simp [resetBlock]

@[simp] theorem resetBlock_dropped (s : State) : (resetBlock s).dropped = s.dropped ++ s.pending.map fun c => c.host := by
  simp [resetBlock]

@[simp] theorem resetBlock_schedule (s : State) : (resetBlock s).schedule = s.schedule := by
  simp [resetBlock]

theorem resetBlock_fatal (s : State) : (resetBlock s).fatal = keyMalformed s.cfg := by
  unfold resetBlock resetCheck
  split <;> simp_all [latchFatal, Status.setsFatal]

theorem resetBlock_fatalCause (s : State) :
    (resetBlock s).fatalCause = if keyMalformed s.cfg then 0x32 else 0x00 := by
  unfold resetBlock resetCheck
  split <;> simp_all [latchFatal, Status.setsFatal, Status.code]

end Sys2Proof.Machine
end

