-- ==== Sys2Proof/Laws/Table.lean ====
section
/-! SUPPORT. CRC_TABLE: read after write, the one form that every write keeps, and the generated
table. -/

namespace Sys2Proof.Machine

theorem table_read_write_self (t : CrcTable) (i : Nat) (v : Word) :
    CrcTable.read (CrcTable.write t i v) i = some v := by
  induction t with
  | nil => simp [CrcTable.write, CrcTable.read]
  | cons e rest ih =>
    obtain ⟨k, w⟩ := e
    unfold CrcTable.write
    split
    · simp [CrcTable.read]
    · split
      · simp [CrcTable.read]
      · rw [CrcTable.read, if_neg (by omega), ih]

theorem table_read_write_other (t : CrcTable) {i j : Nat} (v : Word) (h : j ≠ i) :
    CrcTable.read (CrcTable.write t i v) j = CrcTable.read t j := by
  induction t with
  | nil => simp [CrcTable.write, CrcTable.read, h.symm]
  | cons e rest ih =>
    obtain ⟨k, w⟩ := e
    unfold CrcTable.write
    split
    · rw [CrcTable.read, if_neg (by omega)]
    · split
      · subst_vars
        simp [CrcTable.read, h.symm]
      · simp [CrcTable.read, ih]

theorem table_wfFrom_mono {t : CrcTable} {lo hi : Nat} (hle : lo ≤ hi) (h : CrcTable.wfFrom hi t) :
    CrcTable.wfFrom lo t := by
  cases t with
  | nil => rfl
  | cons e rest =>
    obtain ⟨k, w⟩ := e
    simp only [CrcTable.wfFrom, Bool.and_eq_true, decide_eq_true_eq] at h ⊢
    exact ⟨⟨by omega, h.1.2⟩, h.2⟩

theorem table_write_wfFrom {t : CrcTable} {lo i : Nat} (v : Word) (hlo : lo ≤ i) (hi : i < 256)
    (h : CrcTable.wfFrom lo t) : CrcTable.wfFrom lo (CrcTable.write t i v) := by
  induction t generalizing lo with
  | nil => simp [CrcTable.write, CrcTable.wfFrom, hlo, hi]
  | cons e rest ih =>
    obtain ⟨k, w⟩ := e
    simp only [CrcTable.wfFrom, Bool.and_eq_true, decide_eq_true_eq] at h
    unfold CrcTable.write
    split
    · simp only [CrcTable.wfFrom, Bool.and_eq_true, decide_eq_true_eq]
      exact ⟨⟨hlo, hi⟩, ⟨by omega, h.1.2⟩, h.2⟩
    · split
      · subst_vars
        simp only [CrcTable.wfFrom, Bool.and_eq_true, decide_eq_true_eq]
        exact h
      · simp only [CrcTable.wfFrom, Bool.and_eq_true, decide_eq_true_eq]
        exact ⟨h.1, ih (by omega) h.2⟩

/-- Every write of an entry that exists keeps the table's one form. -/
theorem table_write_wf {t : CrcTable} {i : Nat} (v : Word) (hi : i < 256) (h : CrcTable.wf t) :
    CrcTable.wf (CrcTable.write t i v) :=
  table_write_wfFrom v (Nat.zero_le i) hi h

theorem table_read_below {t : CrcTable} {lo i : Nat} (h : CrcTable.wfFrom lo t) (hi : i < lo) :
    CrcTable.read t i = none := by
  induction t generalizing lo with
  | nil => rfl
  | cons e rest ih =>
    obtain ⟨k, w⟩ := e
    simp only [CrcTable.wfFrom, Bool.and_eq_true, decide_eq_true_eq] at h
    rw [CrcTable.read, if_neg (by omega)]
    exact ih h.2 (by omega)

/-- Tables of the one form that read alike at every index are the same data. -/
theorem table_ext_from {t u : CrcTable} {lo : Nat} (ht : CrcTable.wfFrom lo t)
    (hu : CrcTable.wfFrom lo u) (h : ∀ i, CrcTable.read t i = CrcTable.read u i) : t = u := by
  induction t generalizing u lo with
  | nil =>
    cases u with
    | nil => rfl
    | cons e rest =>
      obtain ⟨k, w⟩ := e
      have := h k
      simp [CrcTable.read] at this
  | cons e rest ih =>
    obtain ⟨k, w⟩ := e
    simp only [CrcTable.wfFrom, Bool.and_eq_true, decide_eq_true_eq] at ht
    cases u with
    | nil =>
      have := h k
      simp [CrcTable.read] at this
    | cons e' rest' =>
      obtain ⟨k', w'⟩ := e'
      simp only [CrcTable.wfFrom, Bool.and_eq_true, decide_eq_true_eq] at hu
      have hk : k = k' := by
        rcases Nat.lt_trichotomy k k' with hlt | heq | hgt
        · have := h k
          rw [CrcTable.read, if_pos rfl, CrcTable.read, if_neg (by omega),
            table_read_below hu.2 (by omega)] at this
          cases this
        · exact heq
        · have := h k'
          rw [CrcTable.read, if_neg (by omega), table_read_below ht.2 (by omega), CrcTable.read,
            if_pos rfl] at this
          cases this
      subst hk
      have hw : w = w' := by simpa [CrcTable.read] using h k
      subst hw
      congr 1
      refine ih ht.2 hu.2 fun i => ?_
      by_cases hi : i = k
      · subst hi
        rw [table_read_below ht.2 (by omega), table_read_below hu.2 (by omega)]
      · have := h i
        rw [CrcTable.read, if_neg (Ne.symm hi), CrcTable.read, if_neg (Ne.symm hi)] at this
        exact this

theorem table_ext {t u : CrcTable} (ht : CrcTable.wf t) (hu : CrcTable.wf u)
    (h : ∀ i, CrcTable.read t i = CrcTable.read u i) : t = u :=
  table_ext_from ht hu h

/-! ### The generated table (rules R26, R81) -/

theorem table_write_past_end {t : CrcTable} {i : Nat} (v : Word) (h : ∀ e ∈ t, e.1 < i) :
    CrcTable.write t i v = t ++ [(i, v)] := by
  induction t with
  | nil => rfl
  | cons e rest ih =>
    obtain ⟨k, w⟩ := e
    have hk : k < i := h (k, w) (by simp)
    rw [CrcTable.write, if_neg (by omega), if_neg (by omega),
      ih fun e he => h e (List.mem_cons_of_mem _ he)]
    rfl

theorem builtTable_index_lt {n : Nat} : ∀ e ∈ builtTable n, e.1 < n := by
  simp [builtTable]

/-- One generator step extends the generated table by one entry. -/
theorem builtTable_succ (n : Nat) :
    CrcTable.write (builtTable n) n (crcEntry n) = builtTable (n + 1) := by
  rw [table_write_past_end _ builtTable_index_lt]
  simp [builtTable, List.range_succ]

theorem builtTable_read {n i : Nat} :
    CrcTable.read (builtTable n) i = if i < n then some (crcEntry i) else none := by
  induction n with
  | zero => simp [builtTable, CrcTable.read]
  | succ n ih =>
    rw [← builtTable_succ]
    by_cases h : i = n
    · subst h
      rw [table_read_write_self, if_pos (by omega)]
    · rw [table_read_write_other _ _ h, ih]
      exact ite_congr (by simp; omega) (fun _ => rfl) fun _ => rfl

theorem builtTable_wf {n : Nat} (h : n ≤ 256) : CrcTable.wf (builtTable n) := by
  induction n with
  | zero => rfl
  | succ n ih =>
    rw [← builtTable_succ]
    exact table_write_wf _ (by omega) (ih (by omega))

/-- What a generator step does (rule R81). -/
theorem genStep_cases (s : State) :
    (s.genIdx < 256 ∧
      genStep s =
        { s with
          table := CrcTable.write s.table s.genIdx (crcEntry s.genIdx)
          genIdx := s.genIdx + 1
          tblValid := tblValidAfter (s.genIdx + 1) s.tblValid }) ∨
    (256 ≤ s.genIdx ∧ genStep s = s) := by
  unfold genStep
  split
  · exact .inl ⟨‹_›, rfl⟩
  · exact .inr ⟨by omega, rfl⟩

/-- A generator step keeps the table's one form. -/
theorem genStep_wf {s : State} (h : CrcTable.wf s.table) : CrcTable.wf (genStep s).table := by
  rcases genStep_cases s with ⟨hi, he⟩ | ⟨-, he⟩
  · rw [he]; exact table_write_wf _ hi h
  · rw [he]; exact h

end Sys2Proof.Machine
end

