-- ==== Sys2Proof/Laws/Ops.lean ====
section
/-! SUPPORT. One lemma per shared operation that says everything it can do. -/

namespace Sys2Proof.Machine

/-! ### Draws (rule R30) -/

/-- Entries of the source's queue that are no answer to a request. -/
abbrev NoAnswers (req : DrawReq) (skipped : List Answer) : Prop :=
  ∀ a ∈ skipped, ∃ v, a = .bytes v ∧ answersReq req v = false

/-- What a draw can do: it takes the first entry that answers the request or signals exhaustion, and
stalls where there is none. -/
theorem takeDraw_cases (req : DrawReq) (q : List Answer) :
    (∃ skipped v rest, q = skipped ++ .bytes v :: rest ∧ NoAnswers req skipped ∧
      answersReq req v = true ∧ takeDraw req q = .bytes v rest) ∨
    (∃ skipped rest, q = skipped ++ .exhausted :: rest ∧ NoAnswers req skipped ∧
      takeDraw req q = .exhausted rest) ∨
    (NoAnswers req q ∧ takeDraw req q = .stalled) := by
  induction q with
  | nil => exact .inr (.inr ⟨by simp [NoAnswers], rfl⟩)
  | cons a q ih =>
    cases a with
    | exhausted => exact .inr (.inl ⟨[], q, rfl, by simp [NoAnswers], rfl⟩)
    | bytes v =>
      cases hv : answersReq req v with
      | true => exact .inl ⟨[], v, q, rfl, by simp [NoAnswers], hv, by simp [takeDraw, hv]⟩
      | false =>
        have hstep : takeDraw req (.bytes v :: q) = takeDraw req q := by simp [takeDraw, hv]
        rw [hstep]
        have hcons : ∀ sk, NoAnswers req sk → NoAnswers req (.bytes v :: sk) := by
          intro sk hsk a ha
          rcases List.mem_cons.mp ha with rfl | ha
          · exact ⟨v, rfl, hv⟩
          · exact hsk a ha
        rcases ih with ⟨sk, w, rest, rfl, hsk, hw, h⟩ | ⟨sk, rest, rfl, hsk, h⟩ | ⟨hsk, h⟩
        · exact .inl ⟨.bytes v :: sk, w, rest, rfl, hcons sk hsk, hw, h⟩
        · exact .inr (.inl ⟨.bytes v :: sk, rest, rfl, hcons sk hsk, h⟩)
        · exact .inr (.inr ⟨hcons q hsk, h⟩)

@[simp] theorem takeDraw_nil (req : DrawReq) : takeDraw req [] = .stalled := rfl

@[simp] theorem takeDraw_exhausted (req : DrawReq) (q : List Answer) :
    takeDraw req (.exhausted :: q) = .exhausted q := rfl

theorem takeDraw_answer {req : DrawReq} {v : Bytes} (h : answersReq req v = true) (q : List Answer) :
    takeDraw req (.bytes v :: q) = .bytes v q := by
  simp [takeDraw, h]

/-- A draw passes over entries that are no answer to it. -/
theorem takeDraw_skip {req : DrawReq} {skipped : List Answer} (h : NoAnswers req skipped)
    (q : List Answer) : takeDraw req (skipped ++ q) = takeDraw req q := by
  induction skipped with
  | nil => rfl
  | cons a rest ih =>
    obtain ⟨v, rfl, hv⟩ := h a (by simp)
    simp only [List.cons_append, takeDraw, hv]
    exact ih fun b hb => h b (List.mem_cons_of_mem _ hb)

theorem withDraw_answer {req : DrawReq} {v : Bytes} (h : answersReq req v = true) (q : List Answer)
    (k : Bytes → List Answer → Reply) : withDraw req (.bytes v :: q) k = k v q := by
  simp [withDraw, takeDraw_answer h]

@[simp] theorem withDraw_exhausted (req : DrawReq) (q : List Answer)
    (k : Bytes → List Answer → Reply) : withDraw req (.exhausted :: q) k = .raise .errRng q := rfl

@[simp] theorem withDraw_nil (req : DrawReq) (k : Bytes → List Answer → Reply) :
    withDraw req [] k = .hold req := rfl

/-- What a draw within an operation can come to. -/
theorem withDraw_cases (req : DrawReq) (q : List Answer) (k : Bytes → List Answer → Reply) :
    (∃ skipped v rest, q = skipped ++ .bytes v :: rest ∧ answersReq req v = true ∧
      withDraw req q k = k v rest) ∨
    (∃ skipped rest, q = skipped ++ .exhausted :: rest ∧
      withDraw req q k = .raise .errRng rest) ∨
    (takeDraw req q = .stalled ∧ withDraw req q k = .hold req) := by
  rcases takeDraw_cases req q with ⟨sk, v, rest, hq, -, hv, h⟩ | ⟨sk, rest, hq, -, h⟩ | ⟨-, h⟩
  · exact .inl ⟨sk, v, rest, hq, hv, by simp [withDraw, h]⟩
  · exact .inr (.inl ⟨sk, rest, hq, by simp [withDraw, h]⟩)
  · exact .inr (.inr ⟨h, by simp [withDraw, h]⟩)

theorem answersReq_any {n : Nat} {v : Bytes} : answersReq (.any n) v = true ↔ v.length = n := by
  simp [answersReq]

theorem answersReq_nonzero {n : Nat} {v : Bytes} :
    answersReq (.nonzero n) v = true ↔ v.length = n ∧ ∀ b ∈ v, b ≠ 0 := by
  simp [answersReq]

/-! ### Responses -/

/-- The state after a successful reply, every field written out. -/
theorem answer_eq_completed (s : State) (c : Command) (rest : List Command) (result : Word)
    (out : Bytes) (q : List Answer) :
    answer c rest { status := .ok, result := result, out := out } { s with entropy := q } =
      completed s c rest result out q := rfl

/-- The state after an error that is not fatal, every field written out. -/
theorem raise_eq_rejected {st : Status} (h : st.setsFatal = false) (s : State) (c : Command)
    (rest : List Command) : raise st c rest s = rejected s c rest st (errorResult st s) := by
  rw [raise, latchFatal_of_not_setsFatal h]
  rfl

/-- The state after `ERR_RNG` in a block that was not fatal, every field written out. -/
theorem raise_errRng {s : State} (h : s.fatal = false) (c : Command) (rest : List Command)
    (q : List Answer) :
    raise .errRng c rest { s with entropy := q } = exhaustedState s c rest q := by
  rw [raise, latchFatal_of_setsFatal rfl (by exact h)]
  rfl

/-! ### The common checks (rule R209) -/

/-- What the common checks of a legal word's command can come to. -/
theorem execute_cases (op : Command → State → Reply) (s : State) :
    (s.pending = [] ∧ execute op s = .next s) ∨
    ∃ c rest, s.pending = c :: rest ∧
      ((s.fatal = true ∧
          execute op s = .next (rejected s c rest .errHalted (s.fatalCause.zeroExtend 32))) ∨
        (s.fatal = false ∧ s.tblValid = false ∧ execute op s = .next s) ∨
        (s.fatal = false ∧ s.tblValid = true ∧ operandTooLong s.cfg c = true ∧
          execute op s = .next (rejected s c rest .errLength 0)) ∨
        (Executable s c rest ∧ execute op s = commit c rest s (op c s))) := by
  unfold execute whenReady
  cases hp : s.pending with
  | nil => exact .inl ⟨rfl, rfl⟩
  | cons c rest =>
    refine .inr ⟨c, rest, rfl, ?_⟩
    dsimp only
    cases hf : s.fatal with
    | true =>
      refine .inl ⟨rfl, ?_⟩
      rw [if_pos rfl, raise_eq_rejected rfl]
      rfl
    | false =>
      rw [if_neg (by simp)]
      cases ht : s.tblValid with
      | false => exact .inr (.inl ⟨rfl, rfl, rfl⟩)
      | true =>
        rw [if_pos rfl]
        cases hl : operandTooLong s.cfg c with
        | true =>
          refine .inr (.inr (.inl ⟨rfl, rfl, rfl, ?_⟩))
          rw [if_pos rfl, raise_eq_rejected rfl]
          rfl
        | false => exact .inr (.inr (.inr ⟨⟨hp, hf, ht, hl⟩, rfl⟩))

/-- A command that passes the common checks is executed by its operation. -/
theorem execute_of_executable {s : State} {c : Command} {rest : List Command}
    (h : Executable s c rest) (op : Command → State → Reply) :
    execute op s = commit c rest s (op c s) := by
  obtain ⟨hp, hf, ht, hl⟩ := h
  simp [execute, whenReady, hp, hf, ht, hl]

/-- What the common checks of an illegal word's command can come to. -/
theorem answerIllegal_cases (s : State) :
    (s.pending = [] ∧ answerIllegal s = .next s) ∨
    ∃ c rest, s.pending = c :: rest ∧
      ((s.fatal = true ∧
          answerIllegal s = .next (rejected s c rest .errHalted (s.fatalCause.zeroExtend 32))) ∨
        (s.fatal = false ∧ s.tblValid = false ∧ answerIllegal s = .next s) ∨
        (s.fatal = false ∧ s.tblValid = true ∧
          answerIllegal s = .next (rejected s c rest .errIllegal 0))) := by
  unfold answerIllegal whenReady
  cases hp : s.pending with
  | nil => exact .inl ⟨rfl, rfl⟩
  | cons c rest =>
    refine .inr ⟨c, rest, rfl, ?_⟩
    dsimp only
    cases hf : s.fatal with
    | true =>
      refine .inl ⟨rfl, ?_⟩
      rw [if_pos rfl, raise_eq_rejected rfl]
      rfl
    | false =>
      rw [if_neg (by simp)]
      cases ht : s.tblValid with
      | false => exact .inr (.inl ⟨rfl, rfl, rfl⟩)
      | true =>
        refine .inr (.inr ⟨rfl, rfl, ?_⟩)
        rw [if_pos rfl, raise_eq_rejected rfl]
        rfl

/-- What a reply does to the state. -/
theorem commit_cases (c : Command) (rest : List Command) (s : State) (r : Reply) :
    (∃ result out q, r = .done result out q ∧
      commit c rest s r = .next (completed s c rest result out q)) ∨
    (∃ st q, r = .raise st q ∧ st.setsFatal = false ∧
      commit c rest s r =
        .next (rejected { s with entropy := q } c rest st (errorResult st s))) ∨
    (∃ st q, r = .raise st q ∧ st.setsFatal = true ∧
      commit c rest s r = .next (raise st c rest { s with entropy := q })) ∨
    (∃ req, r = .hold req ∧ commit c rest s r = .next { s with engine := .stalled req }) ∨
    (∃ f, r = .stop f ∧ commit c rest s r = .fault f) := by
  cases r with
  | done result out q => exact .inl ⟨result, out, q, rfl, rfl⟩
  | raise st q =>
    cases hst : st.setsFatal with
    | false =>
      refine .inr (.inl ⟨st, q, rfl, hst, ?_⟩)
      rw [commit, raise_eq_rejected hst]
      cases st <;> rfl
    | true => exact .inr (.inr (.inl ⟨st, q, rfl, hst, rfl⟩))
  | hold req => exact .inr (.inr (.inr (.inl ⟨req, rfl, rfl⟩)))
  | stop f => exact .inr (.inr (.inr (.inr ⟨f, rfl, rfl⟩)))

/-! ### The other agents -/

/-- What a host's issue can come to (rules R60, R238). -/
theorem issue_cases (c : Command) (s : State) :
    ((∀ d ∈ s.pending, d.host ≠ c.host) ∧ issue c s = .next { s with pending := s.pending ++ [c] }) ∨
    ((∃ d ∈ s.pending, d.host = c.host) ∧ issue c s = .refused (.secondCommand c.host)) := by
  unfold issue
  split
  · refine .inr ⟨?_, rfl⟩
    simpa using ‹(s.pending.any fun d => d.host == c.host) = true›
  · refine .inl ⟨?_, rfl⟩
    simpa using ‹¬(s.pending.any fun d => d.host == c.host) = true›

theorem perm_cons_eraseP {l : List Command} {p : Command → Bool} {c : Command}
    (h : l.find? p = some c) : (c :: l.eraseP p).Perm l := by
  induction l with
  | nil => simp at h
  | cons d l ih =>
    cases hd : p d with
    | true =>
      have : d = c := by simpa [List.find?, hd] using h
      subst this
      simp [List.eraseP, hd]
    | false =>
      have h' : l.find? p = some c := by simpa [List.find?, hd] using h
      simp only [List.eraseP, hd]
      exact (List.Perm.swap d c _).trans ((ih h').cons d)

/-- Arbitration only reorders the outstanding commands (rule R48). -/
theorem arbitrate_pending_perm (h : Nat) (s : State) :
    (arbitrate h s).pending.Perm s.pending := by
  unfold arbitrate
  split
  · next hfind => exact perm_cons_eraseP hfind
  · exact List.Perm.refl _

/-- A command that occupies the engine keeps it (rule R31). -/
theorem arbitrate_of_occupied {s : State} (h : s.engine ≠ .free) (host : Nat) :
    arbitrate host s = s := by
  unfold arbitrate
  split
  · next heng _ => exact absurd heng h
  · rfl

/-- The turn that the schedule dictates is the turn taken, in a block that has been reset. -/
theorem nextTurn_scheduled {s : State} {t : Turn} {rest : List Turn} (hs : s.schedule = t :: rest)
    (hp : s.powered = true) : nextTurn s = (t, { s with schedule := rest }) := by
  simp [nextTurn, hs, hp]

/-- Where nothing is scheduled, the chosen turn is taken. -/
theorem nextTurn_chosen {s : State} (hs : s.schedule = []) (hp : s.powered = true) :
    nextTurn s = (chooseTurn s, s) := by
  simp [nextTurn, hs, hp]

/-- A reset is taken even in a block that has had none (rule R231). -/
theorem nextTurn_reset {s : State} {rest : List Turn} (hs : s.schedule = .reset :: rest) :
    nextTurn s = (.reset, { s with schedule := rest }) := by
  simp [nextTurn, hs]

/-- A step of a block that has been reset is the turn of `t` in a state with nothing but the schedule
changed. -/
theorem step_cases {s : State} (hp : s.powered = true) :
    (∃ t rest, s.schedule = t :: rest ∧ step s = takeTurn t { s with schedule := rest }) ∨
    (s.schedule = [] ∧ step s = takeTurn (chooseTurn s) s) := by
  cases hs : s.schedule with
  | nil => exact .inr ⟨rfl, by rw [step, nextTurn_chosen hs hp]⟩
  | cons t rest => exact .inl ⟨t, rest, rfl, by rw [step, nextTurn_scheduled hs hp]⟩

/-- The engine's step is the execution of the first outstanding command's word (rule R60). -/
theorem engineStep_cases (s : State) :
    (s.pending = [] ∧ engineStep s = .next s) ∨
    (∃ c rest i, s.pending = c :: rest ∧ decode c.word = .ok i ∧ engineStep s = exec i s) ∨
    (∃ c rest e, s.pending = c :: rest ∧ decode c.word = .error e ∧
      engineStep s = answerIllegal s) := by
  unfold engineStep fetch
  cases hp : s.pending with
  | nil => exact .inl ⟨rfl, rfl⟩
  | cons c rest =>
    cases hd : decode c.word with
    | ok i => exact .inr (.inl ⟨c, rest, i, rfl, hd, by simp [hd]⟩)
    | error e => exact .inr (.inr ⟨c, rest, e, rfl, hd, by simp [hd]⟩)

end Sys2Proof.Machine
end

