-- ==== Sys2Proof/Laws/PerInstr.lean ====
section
/-! SUPPORT. Statements made for every instruction, one lemma per constructor of Instr. -/

namespace Sys2Proof.Laws.EncodeFormat

/-- Rules R61, R63 and R65 on a well-formed command's word: RSV is zero, and IDX is zero unless the opcode
is that of `tblrd`, whose IDX is its index. -/
def Statement (i : Instr) : Prop :=
  WellFormed i = true →
    rsvField (encode i) = 0 ∧
    (opcField (encode i) ≠ 0x02 → idxField (encode i) = 0) ∧
    ∀ idx, i = .tblrd idx → (idxField (encode i)).toNat = idx ∧ opcField (encode i) = 0x02

theorem crc32 : Statement .crc32 :=
  fun _ => ⟨by decide, fun _ => by decide, fun _ h => nomatch h⟩

theorem tblrd (idx : Nat) : Statement (.tblrd idx) := by
  intro h
  have hlt : idx < 256 := by simpa [WellFormed] using h
  have all : ∀ n : Fin 256,
      rsvField (encode (.tblrd n)) = 0 ∧ (idxField (encode (.tblrd n))).toNat = n ∧
        opcField (encode (.tblrd n)) = 0x02 := by decide +kernel
  obtain ⟨hr, hi, ho⟩ := all ⟨idx, hlt⟩
  refine ⟨hr, fun hne => absurd ho hne, fun j hj => ?_⟩
  cases hj
  exact ⟨hi, ho⟩

theorem skgen : Statement .skgen :=
  fun _ => ⟨by decide, fun _ => by decide, fun _ h => nomatch h⟩

theorem penc : Statement .penc :=
  fun _ => ⟨by decide, fun _ => by decide, fun _ h => nomatch h⟩

theorem pdec : Statement .pdec :=
  fun _ => ⟨by decide, fun _ => by decide, fun _ h => nomatch h⟩

theorem credenc : Statement .credenc :=
  fun _ => ⟨by decide, fun _ => by decide, fun _ h => nomatch h⟩

end Sys2Proof.Laws.EncodeFormat
end

