-- ==== Sys2Proof/Laws/Replies.lean ====
section
/-! SUPPORT. What the six operations can reply, and from it what an executed command can do. -/

namespace Sys2Proof.Machine

/-- The reply of an operation that is given the entropy source's answers `q0` and whose own errors are
`errs`: a success or an exhaustion after a first part of `q0`, an error of its own before any draw, a
hold, or a stop. -/
abbrev ReplyShape (q0 : List Answer) (errs : List Status) (r : Reply) : Prop :=
  (∃ result out used q, q0 = used ++ q ∧ r = .done result out q) ∨
  (∃ st, st ∈ errs ∧ r = .raise st q0) ∨
  (∃ used q, q0 = used ++ q ∧ r = .raise .errRng q) ∨
  (∃ req, r = .hold req) ∨
  (∃ f, r = .stop f)

theorem withDraw_shape {req : DrawReq} {q0 q : List Answer} {errs : List Status}
    {k : Bytes → List Answer → Reply} (hsuf : ∃ used, q0 = used ++ q)
    (h : ∀ v rest, (∃ used, q0 = used ++ rest) → ReplyShape q0 errs (k v rest)) :
    ReplyShape q0 errs (withDraw req q k) := by
  obtain ⟨used, rfl⟩ := hsuf
  rcases withDraw_cases req q k with ⟨sk, v, rest, rfl, -, hw⟩ | ⟨sk, rest, rfl, hw⟩ | ⟨-, hw⟩
  · rw [hw]
    exact h v rest ⟨used ++ (sk ++ [.bytes v]), by simp⟩
  · rw [hw]
    exact .inr (.inr (.inl ⟨used ++ (sk ++ [.exhausted]), rest, by simp, rfl⟩))
  · rw [hw]
    exact .inr (.inr (.inr (.inl ⟨req, rfl⟩)))

theorem crc32Op_shape (c : Command) (s : State) : ReplyShape s.entropy [] (crc32Op c s) := by
  unfold crc32Op
  split
  · exact .inl ⟨_, _, [], _, rfl, rfl⟩
  · exact .inr (.inr (.inr (.inr ⟨_, rfl⟩)))

theorem tblrdOp_shape (idx : Nat) (c : Command) (s : State) :
    ReplyShape s.entropy [] (tblrdOp idx c s) := by
  unfold tblrdOp
  split
  · exact .inl ⟨_, _, [], _, rfl, rfl⟩
  · exact .inr (.inr (.inr (.inr ⟨_, rfl⟩)))

theorem skgenFinish_shape {cfg : Cfg} {plain em : Bytes} {q0 q : List Answer} {errs : List Status}
    (h : ∃ used, q0 = used ++ q) : ReplyShape q0 errs (skgenFinish cfg plain em q) := by
  obtain ⟨used, rfl⟩ := h
  unfold skgenFinish
  split
  · exact .inl ⟨_, _, used, _, rfl, rfl⟩
  · exact .inr (.inr (.inr (.inr ⟨_, rfl⟩)))

theorem skgenOp_shape (c : Command) (s : State) :
    ReplyShape s.entropy [.errLength] (skgenOp c s) := by
  unfold skgenOp
  split
  · exact .inr (.inl ⟨_, by simp, rfl⟩)
  · refine withDraw_shape ⟨[], rfl⟩ fun v rest hsuf => ?_
    unfold skgenPad
    split <;> exact withDraw_shape hsuf fun _ _ h => skgenFinish_shape h

theorem pencOp_shape (c : Command) (s : State) :
    ReplyShape s.entropy [.errLength] (pencOp c s) := by
  unfold pencOp
  split
  · exact .inr (.inl ⟨_, by simp, rfl⟩)
  · exact withDraw_shape ⟨[], rfl⟩ fun v rest ⟨used, h⟩ => .inl ⟨_, _, used, rest, h, rfl⟩

theorem pdecOp_shape (c : Command) (s : State) :
    ReplyShape s.entropy [.errLength, .errFrame, .errPadding] (pdecOp c s) := by
  unfold pdecOp
  split
  · exact .inr (.inl ⟨_, by simp, rfl⟩)
  · split
    · exact .inr (.inl ⟨_, by simp, rfl⟩)
    · split
      · exact .inr (.inl ⟨_, by simp, rfl⟩)
      · exact .inl ⟨_, _, [], _, rfl, rfl⟩

theorem credencFinish_shape {n e k : Nat} {secret ps : Bytes} {q0 q : List Answer}
    {errs : List Status} (h : ∃ used, q0 = used ++ q) :
    ReplyShape q0 errs (credencFinish n e k secret ps q) := by
  obtain ⟨used, rfl⟩ := h
  unfold credencFinish
  split
  · exact .inl ⟨_, _, used, _, rfl, rfl⟩
  · exact .inr (.inr (.inr (.inr ⟨_, rfl⟩)))

theorem credencOp_shape (c : Command) (s : State) :
    ReplyShape s.entropy [.errHex, .errKey, .errTooLarge] (credencOp c s) := by
  unfold credencOp
  split
  · exact .inr (.inl ⟨_, by simp, rfl⟩)
  · split
    · exact .inr (.inl ⟨_, by simp, rfl⟩)
    · unfold credencWithKey
      split
      · exact .inr (.inl ⟨_, by simp, rfl⟩)
      · dsimp only
        split
        · exact .inr (.inl ⟨_, by simp, rfl⟩)
        · exact withDraw_shape ⟨[], rfl⟩ fun _ _ h => credencFinish_shape h

/-- The operation that `exec` runs for each command (rule R62). -/
def operation : Instr → Command → State → Reply
  | .crc32 => crc32Op
  | .tblrd idx => tblrdOp idx
  | .skgen => skgenOp
  | .penc => pencOp
  | .pdec => pdecOp
  | .credenc => credencOp

theorem exec_eq_execute (i : Instr) (s : State) : exec i s = execute (operation i) s := by
  cases i <;> rfl

/-- The errors that a command's own operation raises before any draw (rule R200). -/
def ownErrors : Instr → List Status
  | .crc32 => []
  | .tblrd _ => []
  | .skgen => [.errLength]
  | .penc => [.errLength]
  | .pdec => [.errLength, .errFrame, .errPadding]
  | .credenc => [.errHex, .errKey, .errTooLarge]

theorem operation_shape (i : Instr) (c : Command) (s : State) :
    ReplyShape s.entropy (ownErrors i) (operation i c s) := by
  cases i with
  | crc32 => exact crc32Op_shape c s
  | tblrd idx => exact tblrdOp_shape idx c s
  | skgen => exact skgenOp_shape c s
  | penc => exact pencOp_shape c s
  | pdec => exact pdecOp_shape c s
  | credenc => exact credencOp_shape c s

/-- What an executed command can do: the one lemma about `exec` from which frames and invariants
follow. -/
theorem exec_cases (i : Instr) (s : State) :
    (s.pending = [] ∧ exec i s = .next s) ∨
    ∃ c rest, s.pending = c :: rest ∧
      ((s.fatal = true ∧
          exec i s = .next (rejected s c rest .errHalted (s.fatalCause.zeroExtend 32))) ∨
        (s.fatal = false ∧ s.tblValid = false ∧ exec i s = .next s) ∨
        (s.fatal = false ∧ s.tblValid = true ∧
          ∃ st, st ∈ .errLength :: ownErrors i ∧ exec i s = .next (rejected s c rest st 0)) ∨
        (Executable s c rest ∧
          ((∃ result out used q, s.entropy = used ++ q ∧ operation i c s = .done result out q ∧
              exec i s = .next (completed s c rest result out q)) ∨
            (∃ used q, s.entropy = used ++ q ∧ exec i s = .next (exhaustedState s c rest q)) ∨
            (∃ req, operation i c s = .hold req ∧
              exec i s = .next { s with engine := .stalled req }) ∨
            (∃ f, operation i c s = .stop f ∧ exec i s = .fault f)))) := by
  rw [exec_eq_execute]
  rcases execute_cases (operation i) s with h | ⟨c, rest, hp, h⟩
  · exact .inl h
  refine .inr ⟨c, rest, hp, ?_⟩
  rcases h with h | h | ⟨hf, ht, -, h⟩ | ⟨hx, h⟩
  · exact .inl h
  · exact .inr (.inl h)
  · exact .inr (.inr (.inl ⟨hf, ht, .errLength, by simp, h⟩))
  · rcases operation_shape i c s with ⟨result, out, used, q, hq, hr⟩ | ⟨st, hst, hr⟩ |
      ⟨used, q, hq, hr⟩ | ⟨req, hr⟩ | ⟨f, hr⟩
    · refine .inr (.inr (.inr ⟨hx, .inl ⟨result, out, used, q, hq, hr, ?_⟩⟩))
      rw [h, hr]
      rfl
    · refine .inr (.inr (.inl ⟨hx.2.1, hx.2.2.1, st, List.mem_cons_of_mem _ hst, ?_⟩))
      have hnf : st.setsFatal = false ∧ errorResult st s = 0 := by
        cases i <;> simp only [ownErrors, List.mem_cons, List.not_mem_nil, or_false] at hst <;>
          rcases hst with rfl | rfl | rfl <;> exact ⟨rfl, rfl⟩
      rw [h, hr, commit, raise_eq_rejected hnf.1]
      exact congrArg (fun r => Host.Outcome.next (rejected s c rest st r)) hnf.2
    · refine .inr (.inr (.inr ⟨hx, .inr (.inl ⟨used, q, hq, ?_⟩)⟩))
      rw [h, hr, commit, raise_errRng hx.2.1]
    · exact .inr (.inr (.inr ⟨hx, .inr (.inr (.inl ⟨req, hr, by rw [h, hr]; rfl⟩))⟩))
    · exact .inr (.inr (.inr ⟨hx, .inr (.inr (.inr ⟨f, hr, by rw [h, hr]; rfl⟩))⟩))

end Sys2Proof.Machine
end

