-- ==== Sys2Proof/Tests/Slice0.lean ====
section
/-! SUPPORT. Tests on fixed values. An expected value is copied from the section of spec/ that the comment
names; none was computed with the model. After the tests, for each obligation with hypotheses, a theorem
`witness_<Name>` shows states and operands that meet them, clause by clause. -/

set_option Elab.async false

namespace Sys2Proof.Tests

open Sys2Proof Sys2Proof.Machine Sys2Proof.Certificates

/-! ### Helpers -/

/-- A block whose table is ready, with nothing outstanding (the end state of spec/95_test_vectors.md
section 7.1). -/
def ready : State := { State.reset with table := builtTable 256, genIdx := 256, tblValid := true }

/-- A command of host 1. -/
def cmd (word : Word) (a b c : Bytes) : Command := { host := 1, word := word, a := a, b := b, c := c }

/-- `ready` with one outstanding command and the answers the entropy source has ready. -/
def holding (c : Command) (q : List Answer) : State := { ready with pending := [c], entropy := q }

/-- The first response that was delivered, with the number of answers left. -/
def replyOf : Result → Option (Status × Word × Bytes × Nat)
  | .next t => t.delivered.head?.map fun d =>
      (d.response.status, d.response.result, d.response.out, t.entropy.length)
  | _ => none

/-- The response of one step that executes the command. -/
def reply (c : Command) (q : List Answer) : Option (Status × Word × Bytes × Nat) :=
  replyOf (step (holding c q))

/-- Whether an outcome is the given next state. -/
def isNext : Result → State → Bool
  | .next u, t => decide (u = t)
  | _, _ => false

theorem eq_next_of_isNext {r : Result} {t : State} (h : isNext r t = true) : r = .next t := by
  cases r with
  | next u => exact congrArg _ (of_decide_eq_true h)
  | fault f => cases h
  | refused f => cases h

/-- The 32-byte key K of spec/95_test_vectors.md. -/
def keyK : Bytes := i2osp 0x000102030405060708090a0b0c0d0e0f101112131415161718191a1b1c1d1e1f 32

/-- The ASCII bytes of "abc". -/
def abc : Bytes := [0x61, 0x62, 0x63]

/-- The ASCII bytes of "hello". -/
def hello : Bytes := [0x68, 0x65, 0x6c, 0x6c, 0x6f]

/-- The frame F1 of spec/95_test_vectors.md section 7.2. -/
def frameF1 : Bytes := i2osp 0xed710997a11263d5e1e24295b396b17ab3c0ab961c609c2f58a25751c59d31f5 32

/-- The nonce of spec/95_test_vectors.md section 5.2. -/
def nonce : Bytes := i2osp 0x000102030405060708090a0b0c0d0e0f 16

/-- The first draw of spec/95_test_vectors.md section 5.2. -/
def plainKey : Bytes := i2osp 0xa0a1a2a3a4a5a6a7a8a9aaabacadaeafb0b1b2b3b4b5b6b7b8b9babbbcbdbebf 32

/-- The hex text of the key SMALL of spec/95_test_vectors.md section 6.1, as ASCII bytes. -/
def smallHex : Bytes :=
  i2osp 0x3963303030303030303030303030356231303030303030303030303030366437 32

/-- The hex text "010001" as ASCII bytes. -/
def exponentHex : Bytes := [0x30, 0x31, 0x30, 0x30, 0x30, 0x31]

/-- The CREDENC command of spec/95_test_vectors.md section 6.3: "hi!!!" under SMALL. -/
def smallCommand : Command := cmd 0x00000030 [0x68, 0x69, 0x21, 0x21, 0x21] smallHex exponentHex

/-- A block like `ready` whose KE_PAD is PKCS1_V15. -/
def withPkcs1 (s : State) : State := { s with cfg := { s.cfg with kePad := .pkcs1V15 } }

/-- The 77 bytes 1 to 77 of spec/95_test_vectors.md section 5.2. -/
def upTo77 : Bytes := (List.range 77).map fun i => BitVec.ofNat 8 (i + 1)

/-- A `skgen` of the nonce. -/
def skgenCommand : Command := cmd 0x00000010 nonce [] []

/-- A `penc` of five bytes under the key K. -/
def pencCommand : Command := cmd 0x00000020 hello keyK []

/-- A `pdec` of the frame F1. -/
def pdecCommand : Command := cmd 0x00000021 frameF1 keyK []

/-- The state in which `penc` makes the frame F1. -/
def pencReady : State := holding pencCommand [.bytes [0x01, 0x02, 0x03]]

/-- The output of spec/95_test_vectors.md section 5.2 for OAEP_SHA1. -/
def skgenOut : Bytes :=
  plainKey ++ i2osp 0x4bf6e8d4a508947bbc269c941af9a0f3ef2812addf7271db419f8c7e51fac397f39fb64f4bff297c9e4067679a6040766a48c830700a5c5d6ff82916d4bdb6eb35151ec6824c7be8309e31708a658a971ef8a21f9ca95dfec4874b107696f0e2e8c3dc8971cf2d87066f88b15ac9f673a7d90664153ef54903e3238fb3f7eca5 128

/-- The draws of spec/95_test_vectors.md section 5.2 for OAEP_SHA1. -/
def skgenReady : State := holding skgenCommand [.bytes plainKey, .bytes (rep 0x55 20)]

/-- A `pdec` of the frame F1 with byte 31 changed by one bit (spec/95_test_vectors.md section 3.3). -/
def tampered : Command := cmd 0x00000021 (frameF1.take 31 ++ [0xf4]) keyK []

/-! ### Well-formedness -/

/-- Rule R65: the index is in 0..255. -/
theorem test_wellFormed_refuses_index_256 : WellFormed (.tblrd 256) = false := by decide

theorem test_wellFormed_accepts_index_255 : WellFormed (.tblrd 255) = true := by decide

/-! ### Decoding: the words are rule R64's patterns written out, bit 31 first -/

theorem test_decode_crc32 : decode 0b00000000000000000000000000000001 = .ok .crc32 := by rfl

theorem test_decode_tblrd : decode 0b00000000000000001010010100000010 = .ok (.tblrd 165) := by rfl

theorem test_decode_skgen : decode 0b00000000000000000000000000010000 = .ok .skgen := by rfl

theorem test_decode_penc : decode 0b00000000000000000000000000100000 = .ok .penc := by rfl

theorem test_decode_pdec : decode 0b00000000000000000000000000100001 = .ok .pdec := by rfl

theorem test_decode_credenc : decode 0b00000000000000000000000000110000 = .ok .credenc := by rfl

/-- Rule R63's three cases: spec/95_test_vectors.md section 7.1's raw words, and section 8's 0x00000003. -/
theorem test_decode_refuses_illegal_words :
    decode 0x00000000 = .error .unknownOpcode ∧ decode 0x00000003 = .error .unknownOpcode ∧
      decode 0x00010002 = .error .reservedNotZero ∧ decode 0x00000101 = .error .indexNotZero :=
  ⟨rfl, rfl, rfl, rfl⟩

/-- Rule R64's match values, and `tblrd 128` of spec/95_test_vectors.md section 2. -/
theorem test_encode_words :
    [Instr.crc32, .tblrd 128, .skgen, .penc, .pdec, .credenc].map encode =
      [0x00000001, 0x00008002, 0x00000010, 0x00000020, 0x00000021, 0x00000030] := by decide

/-- spec/opcode_table.json numbers a word's bits as rule R61 does. -/
theorem test_decodeTableWord :
    decodeTableWord 32 0x0000ff02 = some (.tblrd 255) ∧ decodeTableWord 32 0x00000100 = none := by
  decide

/-! ### One step of each command -/

/-- spec/95_test_vectors.md section 1.1, the input "123456789". -/
theorem test_crc32_check_value :
    reply (cmd 0x00000001 [0x31, 0x32, 0x33, 0x34, 0x35, 0x36, 0x37, 0x38, 0x39] [] []) [] =
      some (.ok, 0xCBF43926, [], 0) := by decide +kernel

/-- spec/95_test_vectors.md section 1.1, the empty input. -/
theorem test_crc32_of_nothing : reply (cmd 0x00000001 [] [] []) [] = some (.ok, 0, [], 0) := by
  decide +kernel

/-- spec/95_test_vectors.md section 2. -/
theorem test_tblrd_128 : reply (cmd 0x00008002 [] [] []) [] = some (.ok, 0xEDB88320, [], 0) := by
  decide +kernel

/-- spec/95_test_vectors.md section 2. -/
theorem test_tblrd_255 : reply (cmd 0x0000FF02 [] [] []) [] = some (.ok, 0x2D02EF8D, [], 0) := by
  decide +kernel

/-- spec/95_test_vectors.md section 5.2, OAEP_SHA1. -/
theorem test_skgen_oaep :
    exec .skgen skgenReady = .next (completed skgenReady skgenCommand [] 0 skgenOut []) :=
  eq_next_of_isNext (by decide +kernel)

/-- spec/95_test_vectors.md section 5.2, PKCS1_V15. -/
theorem test_skgen_pkcs1 :
    replyOf (step (withPkcs1
        (holding (cmd 0x00000010 nonce [] []) [.bytes plainKey, .bytes upTo77]))) =
      some (.ok, 0, plainKey ++ i2osp 0x7117dfa9d5cbaadc168e9b81270b203a79c368c1127c55b908364ff24d174db56aa2f187639728a85649f166fd7f9d753e28b44b9b4bdc6e4e92824e824f29afdc5ae8f3f25f8cbf4c4a0e2f60dd2ec120ded60f0b73a5bed5c6d97a5ade69604079b851431055051ccf24c6d5fb085f6c718709d69c576f5675926ea545d6f4 128, 0) := by
  decide +kernel

/-- spec/95_test_vectors.md section 3.2, "hello". -/
theorem test_penc_hello :
    exec .penc pencReady = .next (completed pencReady pencCommand [] 0 frameF1 []) := by
  have h : pencFrame keyK [0x01, 0x02, 0x03] hello = frameF1 := by decide +kernel
  have he : Executable pencReady pencCommand [] := by decide +kernel
  have hop : pencOp pencCommand pencReady = .done 0 (pencFrame keyK [0x01, 0x02, 0x03] hello) [] := rfl
  show execute pencOp pencReady = _
  rw [execute_of_executable he, hop, h]
  rfl

/-- spec/95_test_vectors.md section 3.2: a key of 31 bytes takes no draw. -/
theorem test_penc_short_key :
    reply (cmd 0x00000020 hello (keyK.take 31) []) [.bytes [0x01, 0x02, 0x03]] =
      some (.errLength, 0, [], 1) := by decide +kernel

/-- `pdec` past its length checks, so that the two evaluations below serve the tests and the witnesses. -/
theorem exec_pdec_plain {s : State} {c : Command} {rest : List Command} {p : Bytes}
    (he : Executable s c rest) (hb : c.b.length = 32) (hf : frameMalformed c.a = false)
    (hp : pdecPlain c.b c.a = some p) :
    exec .pdec s = .next (completed s c rest 0 p s.entropy) :=
  (execute_of_executable he pdecOp).trans (by simp [pdecOp, hb, hf, hp, commit, answer, completed])

theorem exec_pdec_padding {s : State} {c : Command} {rest : List Command}
    (he : Executable s c rest) (hb : c.b.length = 32) (hf : frameMalformed c.a = false)
    (hp : pdecPlain c.b c.a = none) :
    exec .pdec s = .next (rejected s c rest .errPadding 0) :=
  (execute_of_executable he pdecOp).trans (by
    simp [pdecOp, hb, hf, hp, commit, raise_eq_rejected (st := .errPadding) rfl, errorResult])

/-- The plaintext of F1, and the failing padding of the tampered frame. -/
theorem frameF1_plain : pdecPlain pdecCommand.b pdecCommand.a = some hello := by decide +kernel

theorem tampered_plain : pdecPlain tampered.b tampered.a = none := by decide +kernel

/-- spec/95_test_vectors.md section 3.3, first row. -/
theorem test_pdec_hello :
    exec .pdec (holding pdecCommand []) =
      .next (completed (holding pdecCommand []) pdecCommand [] 0 hello []) := by
  have he : Executable (holding pdecCommand []) pdecCommand [] := by decide +kernel
  have hb : pdecCommand.b.length = 32 := by decide
  have hf : frameMalformed pdecCommand.a = false := by decide
  exact exec_pdec_plain he hb hf frameF1_plain

/-- spec/95_test_vectors.md section 3.3: byte 31 changed by one bit. -/
theorem test_pdec_tampered :
    exec .pdec (holding tampered []) =
      .next (rejected (holding tampered []) tampered [] .errPadding 0) := by
  have he : Executable (holding tampered []) tampered [] := by decide +kernel
  have hb : tampered.b.length = 32 := by decide
  have hf : frameMalformed tampered.a = false := by decide
  exact exec_pdec_padding he hb hf tampered_plain

/-- spec/95_test_vectors.md section 6.3: the base64 text "U7njmZQ0K9HmBsqqRXfaAQ==". -/
theorem test_credenc_small :
    reply smallCommand [.bytes (rep 0xab 8)] =
      some (.ok, 0, i2osp 0x55376e6a6d5a51304b39486d427371715258666141513d3d 24, 0) := by
  decide +kernel

/-- spec/95_test_vectors.md section 6.4: A = "a", B = "ABcd", C = "03". -/
theorem test_credenc_too_large :
    reply (cmd 0x00000030 [0x61] [0x41, 0x42, 0x63, 0x64] [0x30, 0x33]) [.bytes (rep 0xab 8)] =
      some (.errTooLarge, 0, [], 1) := by decide +kernel

/-! ### Errors, reset and the generator -/

/-- spec/95_test_vectors.md section 7.1: a raw word is answered with ERR_ILLEGAL. -/
theorem test_illegal_word : reply (cmd 0x00010002 [] [] []) [] = some (.errIllegal, 0, [], 0) := by
  decide +kernel

/-- spec/95_test_vectors.md section 8, third row: a word is checked before its operands' lengths. -/
theorem test_illegal_before_length :
    replyOf (step { holding (cmd 0x00000003 [0x00] [] []) [] with
        cfg := { Cfg.specTest with operandMax := some 0 } }) = some (.errIllegal, 0, [], 0) := by
  decide +kernel

/-- spec/95_test_vectors.md section 8, fourth row: an ignored operand over the limit. -/
theorem test_ignored_operand_counts :
    replyOf (step { holding (cmd 0x0000FF02 [] [] [0x00]) [] with
        cfg := { Cfg.specTest with operandMax := some 0 } }) = some (.errLength, 0, [], 0) := by
  decide +kernel

/-- spec/95_test_vectors.md section 7.4: a modulus of 127 octets is fatal with 0x32 at reset. -/
theorem test_reset_check_refuses_short_modulus :
    let s := resetBlock { ready with cfg := { ready.cfg with serverN := ready.cfg.serverN >>> 8 } }
    s.fatal = true ∧ s.fatalCause = 0x32 ∧ s.genIdx = 0 := by decide +kernel

/-- spec/95_test_vectors.md section 7.4: an instance with `SERVER_E = 0` behaves the same. -/
theorem test_reset_check_refuses_zero_exponent :
    (resetBlock { ready with cfg := { ready.cfg with serverE := 0 } }).fatal = true := by decide +kernel

/-- spec/95_test_vectors.md section 1.3: the entries 1 and 128, and the flag of the last step. -/
theorem test_generator_entries :
    crcEntry 1 = 0x77073096 ∧ crcEntry 128 = 0xEDB88320 ∧
      (genStep { State.reset with genIdx := 254 }).tblValid = false ∧
      (genStep { State.reset with genIdx := 255 }).tblValid = true := by decide +kernel

/-- The table of the reset state and the generated one have the table's one form. -/
theorem test_table_forms :
    CrcTable.wf State.reset.table = true ∧ CrcTable.wf (builtTable 256) = true := by decide +kernel

/-- `withFetchWord` makes the next step run the word: `tblrd 128` from the reset state. -/
theorem test_withFetchWord :
    replyOf (step (State.reset.withFetchWord 32 0x00008002)) = some (.ok, 0xEDB88320, [], 0) := by
  decide +kernel

/-- spec/30_encoding.md rule R66's listing: `crc32 A="abc"`, and an omitted slot is empty. -/
theorem test_assemble_statement :
    assembleStatement [] 1 { instr := .crc32, operands := [(.a, .ascii abc)] } =
      some (cmd 0x00000001 abc [] []) := by decide

/-- spec/95_test_vectors.md section 6.2: the UTF-8 bytes of "pässwörd". -/
theorem test_utf8_literal :
    literalBytes [] (.utf8 [0x70, 0xe4, 0x73, 0x73, 0x77, 0xf6, 0x72, 0x64]) =
      some (i2osp 0x70c3a4737377c3b67264 10) := by decide

/-! ### Witnesses: encoding and the step -/

/-- A `crc32` command of three bytes. -/
def crcAbc : Command := cmd 0x00000001 abc [] []

/-- A fatal block with one outstanding command and a table that is not ready. -/
def fatalState : State :=
  { State.reset with pending := [crcAbc], fatal := true, fatalCause := 0x30 }

/-- A block whose engine is held by a `penc` that waits for its draw. -/
def stalledState : State :=
  { holding (cmd 0x00000020 hello keyK []) [] with engine := .stalled (.any 3) }

theorem witness_StepRunsTheDecodedCommand :
    let s := { holding crcAbc [] with schedule := [.engine] }
    s.powered = true ∧ s.pending = crcAbc :: [] ∧ decode crcAbc.word = .ok .crc32 ∧
      s.schedule = .engine :: [] := ⟨rfl, rfl, rfl, rfl⟩

theorem witness_StepRunsTheDecodedCommand_unscheduled :
    (fatalState.powered = true ∧ fatalState.pending = crcAbc :: [] ∧
      decode crcAbc.word = .ok .crc32 ∧ fatalState.schedule = [] ∧ fatalState.fatal = true) ∧
    (let c := cmd 0x00000020 hello keyK []
     stalledState.powered = true ∧ stalledState.pending = c :: [] ∧ decode c.word = .ok .penc ∧
      stalledState.schedule = [] ∧ stalledState.tblValid = true ∧ stalledState.rngLive = false) ∧
    (let s := { holding crcAbc [] with rngLive := true }
     s.powered = true ∧ s.pending = crcAbc :: [] ∧ s.schedule = [] ∧ s.tblValid = true ∧
      ∀ req, s.engine ≠ .stalled req) :=
  ⟨⟨rfl, rfl, rfl, rfl, rfl⟩, ⟨rfl, rfl, rfl, rfl, rfl, rfl⟩, ⟨rfl, rfl, rfl, rfl, nofun⟩⟩

theorem witness_IllegalWordsAreAnswered :
    let s := { ready with schedule := [.engine], pending := [cmd 0x00010002 [] [] []] }
    (s.powered = true ∧ s.schedule = .engine :: [] ∧ s.fatal = false ∧ s.tblValid = true) ∧
    (0x00010002#32).toNat / 2 ^ 16 ≠ 0 ∧
    (0x00000000#32).toNat % 2 ^ 8 ∉ [0x01, 0x02, 0x10, 0x20, 0x21, 0x30] ∧
    ((0x00000101#32).toNat % 2 ^ 8 ≠ 0x02 ∧ (0x00000101#32).toNat / 2 ^ 8 % 2 ^ 8 ≠ 0) := by decide

theorem witness_CommandsHoldUntilTheTableIsReady :
    let s := { State.reset with schedule := [.engine], pending := [crcAbc] }
    s.powered = true ∧ s.schedule = .engine :: [] ∧ s.fatal = false ∧ s.tblValid = false := by decide

theorem witness_GeneratorStepWritesOneEntry :
    let s := { State.reset with schedule := [.generator] }
    (s.powered = true ∧ s.schedule = .generator :: []) ∧ s.genIdx < 256 ∧
      { s with genIdx := 255 }.genIdx < 256 ∧ 256 ≤ { s with genIdx := 256 }.genIdx := by decide

theorem witness_GenerationGivesTheListedTable : ready.schedule = [] := rfl

theorem witness_ResetClearsAndChecksTheKey :
    { ready with schedule := [.reset] }.schedule = .reset :: [] ∧ CfgLegal Cfg.specTest := by
  decide +kernel

theorem witness_NothingHappensBeforeTheFirstReset :
    let s := { State.unpowered Cfg.specTest with schedule := [.issue crcAbc] }
    s.powered = false ∧ s.schedule.head? ≠ some .reset := by decide +kernel

/-! ### Witnesses: errors and the fatal state -/

theorem witness_FatalBlockAnswersHalted :
    (fatalState.powered = true ∧ fatalState.fatal = true ∧ fatalState.pending = crcAbc :: []) ∧
    { fatalState with schedule := [.engine] }.schedule = .engine :: [] ∧ fatalState.schedule = [] ∧
    fatalState.schedule.head? ≠ some .reset ∧
    step fatalState = .next (rejected fatalState crcAbc [] .errHalted 0x30) :=
  ⟨by decide, rfl, rfl, nofun, eq_next_of_isNext (by decide +kernel)⟩

theorem witness_FatalIsStickyAndSetByExhaustion :
    (step fatalState = .next (rejected fatalState crcAbc [] .errHalted 0x30) ∧
      fatalState.schedule.head? ≠ some .reset ∧ fatalState.fatal = true) ∧
    (let s := holding pencCommand [.exhausted]
     step s = .next (exhaustedState s pencCommand [] []) ∧ s.schedule.head? ≠ some .reset ∧
      s.fatal = false ∧ (exhaustedState s pencCommand [] []).fatal = true) :=
  ⟨⟨eq_next_of_isNext (by decide +kernel), nofun, rfl⟩,
    ⟨eq_next_of_isNext (by decide +kernel), nofun, rfl, rfl⟩⟩

theorem witness_ExhaustionEndsTheDrawingCommands_skgen :
    (let s := holding skgenCommand [.exhausted]
     Executable s skgenCommand [] ∧ skgenCommand.a.length = 16 ∧ s.entropy = .exhausted :: []) ∧
    (let s := holding skgenCommand [.bytes plainKey, .exhausted]
     Executable s skgenCommand [] ∧ plainKey.length = 32 ∧
      s.entropy = .bytes plainKey :: .exhausted :: []) := by decide +kernel

theorem witness_ExhaustionEndsTheDrawingCommands_penc :
    let s := holding pencCommand [.exhausted]
    Executable s pencCommand [] ∧ pencCommand.b.length = 32 ∧ s.entropy = .exhausted :: [] := by
  decide +kernel

/-- The bytes of the modulus SMALL (spec/95_test_vectors.md section 6.1). -/
def smallModulus : Bytes := i2osp 0x9c0000000000005b10000000000006d7 16

theorem witness_ExhaustionEndsTheDrawingCommands_credenc :
    let s := holding smallCommand [.exhausted]
    Executable s smallCommand [] ∧ hexDecode smallCommand.b = some smallModulus ∧
      hexDecode smallCommand.c = some [0x01, 0x00, 0x01] ∧ 0 < os2ip smallModulus ∧
      0 < os2ip [0x01, 0x00, 0x01] ∧ 256 ^ (smallCommand.a.length + 10) ≤ os2ip smallModulus ∧
      s.entropy = .exhausted :: [] := by decide +kernel

theorem witness_StalledDrawsHold :
    (let s := holding skgenCommand []
     Executable s skgenCommand [] ∧ skgenCommand.a.length = 16 ∧ s.entropy = []) ∧
    (let s := holding skgenCommand [.bytes plainKey]
     Executable s skgenCommand [] ∧ plainKey.length = 32 ∧ s.entropy = [.bytes plainKey]) ∧
    (let s := withPkcs1 (holding skgenCommand [.bytes plainKey])
     Executable s skgenCommand [] ∧ s.entropy = [.bytes plainKey] ∧ s.cfg.kePad = .pkcs1V15) ∧
    (let s := holding pencCommand []
     Executable s pencCommand [] ∧ pencCommand.b.length = 32 ∧ s.entropy = []) ∧
    (let s := holding smallCommand []
     Executable s smallCommand [] ∧ hexDecode smallCommand.b = some smallModulus ∧
      hexDecode smallCommand.c = some [0x01, 0x00, 0x01] ∧ 0 < os2ip [0x01, 0x00, 0x01] ∧
      256 ^ (16 - 1) ≤ os2ip smallModulus ∧ os2ip smallModulus < 256 ^ 16 ∧
      smallCommand.a.length + 11 ≤ 16 ∧ s.entropy = []) := by decide +kernel

theorem over_limit : 10032 < (rep 0x00 10033).length :=
  Nat.lt_of_lt_of_eq (Nat.lt_succ_self 10032) List.length_replicate.symm

theorem witness_OperandLimitIsChecked :
    let c := cmd 0x01 (rep 0x00 10033) [] []
    ((holding c []).pending = c :: [] ∧ (holding c []).fatal = false ∧
      (holding c []).tblValid = true ∧ (holding c []).cfg.operandMax = some 10032) ∧
    10032 < c.a.length ∧ 10032 < (cmd 0x01 [] (rep 0x00 10033) []).b.length ∧
    10032 < (cmd 0x01 [] [] (rep 0x00 10033)).c.length ∧
    { Cfg.specTest with operandMax := none }.operandMax = none :=
  ⟨⟨rfl, rfl, rfl, rfl⟩, over_limit, over_limit, over_limit, rfl⟩

/-- The state after the empty input's `crc32`. -/
def crcDone : State := completed (holding (cmd 0x01 [] [] []) []) (cmd 0x01 [] [] []) [] 0 [] []

theorem witness_EveryExecutionHoldsOrAnswersOnce :
    (let s := holding (cmd 0x01 [] [] []) []
     s.pending = cmd 0x01 [] [] [] :: [] ∧ exec .crc32 s = .next crcDone) ∧
    (let s := holding pencCommand []
     s.pending = pencCommand :: [] ∧ exec .penc s = .next { s with engine := .stalled (.any 3) }) :=
  ⟨⟨rfl, eq_next_of_isNext (by decide +kernel)⟩, ⟨rfl, eq_next_of_isNext (by decide +kernel)⟩⟩

/-- A `pdec` of an empty frame. -/
def emptyFrame : Command := cmd 0x00000021 [] keyK []

/-- The state after it. -/
def emptyFrameDone : State := rejected (holding emptyFrame []) emptyFrame [] .errFrame 0

theorem witness_ErrorsArePreciseAndDrawNothing :
    (holding emptyFrame []).pending = emptyFrame :: [] ∧
    exec .pdec (holding emptyFrame []) = .next emptyFrameDone ∧
    emptyFrameDone.delivered = (holding emptyFrame []).delivered ++
      [{ host := emptyFrame.host, response := { status := .errFrame, result := 0, out := [] } }] ∧
    Status.errFrame ≠ .ok ∧ Status.errFrame ≠ .errRng :=
  ⟨rfl, eq_next_of_isNext (by decide +kernel), rfl, nofun, nofun⟩

theorem witness_IntegrityErrorsOnlyFromPdec :
    (holding emptyFrame []).pending = emptyFrame :: [] ∧
    exec .pdec (holding emptyFrame []) = .next emptyFrameDone ∧
    emptyFrameDone.delivered = (holding emptyFrame []).delivered ++
      [{ host := emptyFrame.host, response := { status := .errFrame, result := 0, out := [] } }] ∧
    Status.errFrame.code.toNat / 16 = 2 :=
  ⟨rfl, eq_next_of_isNext (by decide +kernel), rfl, rfl⟩

/-! ### Witnesses: invariants and the agents -/

/-- One outstanding `crc32` of the empty input. -/
def crcEmpty : State := holding (cmd 0x01 [] [] []) []

theorem crcEmpty_step : step crcEmpty = .next crcDone := eq_next_of_isNext (by decide +kernel)

theorem crcEmpty_inv : Inv crcEmpty := by decide +kernel

theorem witness_ResponsesStayComplete :
    Inv crcEmpty ∧ ResponsesComplete crcEmpty ∧ step crcEmpty = .next crcDone :=
  ⟨crcEmpty_inv, nofun, crcEmpty_step⟩

theorem witness_EveryStepKeepsTheInvariant : Inv crcEmpty ∧ step crcEmpty = .next crcDone :=
  ⟨crcEmpty_inv, crcEmpty_step⟩

theorem witness_NoStepFaults :
    let s := { crcEmpty with schedule := [.issue (cmd 0x01 [] [] [])] }
    Inv crcEmpty ∧ Inv s ∧ step s = .refused (.secondCommand 1) :=
  ⟨crcEmpty_inv, crcEmpty_inv, rfl⟩

theorem witness_ConfigurationIsFixed : step crcEmpty = .next crcDone := crcEmpty_step

theorem witness_OnlyGeneratorAndResetWriteTheTable :
    (let s := { crcEmpty with schedule := [.engine] }
     (nextTurn s).1 ≠ .generator ∧ (nextTurn s).1 ≠ .reset ∧ step s = .next crcDone) ∧
    (crcEmpty.schedule = [] ∧ (nextTurn crcEmpty).1 ≠ .generator ∧ (nextTurn crcEmpty).1 ≠ .reset ∧
      step crcEmpty = .next crcDone) :=
  ⟨⟨nofun, nofun, eq_next_of_isNext (by decide +kernel)⟩, rfl, nofun, nofun, crcEmpty_step⟩

/-- `crcEmpty` with the command of another host, after another response. -/
def crcOther : State :=
  { crcEmpty with
    pending := [{ host := 2, word := 0x01, a := [], b := [], c := [] }]
    delivered := [{ host := 3, response := { status := .ok, result := 7, out := [] } }] }

theorem witness_ResponseDependsOnlyOnItsInputs :
    (∃ c c', crcEmpty.pending = c :: [] ∧ crcOther.pending = c' :: [] ∧ c.a = c'.a ∧ c.b = c'.b ∧
      c.c = c'.c ∧ crcDone.delivered = crcEmpty.delivered ++
        [{ host := c.host, response := { status := .ok, result := 0, out := [] } }]) ∧
    crcEmpty.entropy = crcOther.entropy ∧
    (∀ j, CrcTable.read crcEmpty.table j = CrcTable.read crcOther.table j) ∧
    crcEmpty.cfg = crcOther.cfg ∧ crcEmpty.fatal = crcOther.fatal ∧
    crcEmpty.fatalCause = crcOther.fatalCause ∧ crcEmpty.tblValid = crcOther.tblValid ∧
    exec .crc32 crcEmpty = .next crcDone :=
  ⟨⟨_, _, rfl, rfl, rfl, rfl, rfl, rfl⟩, rfl, fun _ => rfl, rfl, rfl, rfl, rfl,
    eq_next_of_isNext (by decide +kernel)⟩

theorem witness_IssueCapturesTheCommand :
    (let s := { ready with schedule := [.issue crcAbc] }
     s.powered = true ∧ s.schedule = .issue crcAbc :: [] ∧ ∀ d ∈ s.pending, d.host ≠ crcAbc.host) ∧
    (let s := { crcEmpty with schedule := [.issue crcAbc] }
     s.powered = true ∧ s.schedule = .issue crcAbc :: [] ∧ ∃ d ∈ s.pending, d.host = crcAbc.host) :=
  ⟨⟨rfl, rfl, nofun⟩, ⟨rfl, rfl, _, .head _, rfl⟩⟩

theorem witness_ArbitrationReordersUnlessOccupied :
    (let s := { crcEmpty with schedule := [.arbitrate 1] }
     s.powered = true ∧ s.schedule = .arbitrate 1 :: [] ∧ s.engine = .free ∧
      ∃ d ∈ s.pending, d.host = 1) ∧
    (let s := { stalledState with schedule := [.arbitrate 1] }
     s.powered = true ∧ s.schedule = .arbitrate 1 :: [] ∧ s.engine ≠ .free) :=
  ⟨⟨rfl, rfl, rfl, _, .head _, rfl⟩, ⟨rfl, rfl, nofun⟩⟩

theorem witness_SourceAnswersTheStalledDraw :
    (let s := { stalledState with schedule := [.source] }
     s.powered = true ∧ s.schedule = .source :: [] ∧ s.engine = .stalled (.any 3)) ∧
    (let s := { stalledState with schedule := [.source], engine := .stalled (.nonzero 77) }
     s.powered = true ∧ s.schedule = .source :: [] ∧ s.engine = .stalled (.nonzero 77)) :=
  ⟨⟨rfl, rfl, rfl⟩, ⟨rfl, rfl, rfl⟩⟩

theorem witness_SuppliedAnswersQueueUp :
    (let s := { stalledState with schedule := [.entropy .exhausted] }
     s.powered = true ∧ s.schedule = .entropy .exhausted :: [] ∧ s.engine = .stalled (.any 3)) ∧
    (let s := { crcEmpty with schedule := [.entropy (.bytes abc)] }
     s.powered = true ∧ s.schedule = .entropy (.bytes abc) :: [] ∧ ∀ req, s.engine ≠ .stalled req) :=
  ⟨⟨rfl, rfl, rfl⟩, ⟨rfl, rfl, nofun⟩⟩

theorem witness_EveryCommandIsEventuallyAnswered :
    let s := { stalledState with rngLive := true }
    Inv s ∧ s.schedule = [] ∧ s.rngLive = true ∧ s.pending = pencCommand :: [] := by decide +kernel

theorem witness_LiveRunsEnd :
    let s := { State.reset with pending := [crcAbc], rngLive := true }
    Inv s ∧ s.schedule = [] ∧ s.rngLive = true ∧ s.dropped = [] := by decide +kernel

/-! ### Witnesses: the commands -/

theorem witness_Crc32RunsTheTableLoop :
    TableInv (holding crcAbc []) ∧ Executable (holding crcAbc []) crcAbc [] := by decide +kernel

theorem witness_Crc32IsTheReflectedPolynomialDivision :
    TableInv (holding crcAbc []) ∧ Executable (holding crcAbc []) crcAbc [] := by decide +kernel

theorem witness_TblrdReadsTheListedEntry :
    let c := cmd 0x0000FF02 [] [] []
    TableInv (holding c []) ∧ Executable (holding c []) c [] ∧ listedTable[0]? = some 0x00000000 ∧
      listedTable[255]? = some 0x2D02EF8D ∧ 256 ≤ 256 := by decide +kernel

theorem witness_SkgenEncapsulatesWithOaep :
    let seed := rep 0x55 20
    let s := holding skgenCommand [.bytes plainKey, .bytes seed]
    Executable s skgenCommand [] ∧ skgenCommand.a.length = 16 ∧ s.cfg.kePad = .oaepSha1 ∧
      256 ^ 127 ≤ s.cfg.serverN.toNat ∧ 1 ≤ s.cfg.serverE.toNat ∧
      s.entropy = .bytes plainKey :: .bytes seed :: [] ∧ plainKey.length = 32 ∧ seed.length = 20 := by
  decide +kernel

theorem witness_SkgenEncapsulatesWithPkcs1 :
    let ps := rep 0x55 77
    let s := withPkcs1 (holding skgenCommand [.bytes plainKey, .bytes ps])
    Executable s skgenCommand [] ∧ skgenCommand.a.length = 16 ∧ s.cfg.kePad = .pkcs1V15 ∧
      256 ^ 127 ≤ s.cfg.serverN.toNat ∧ 1 ≤ s.cfg.serverE.toNat ∧
      s.entropy = .bytes plainKey :: .bytes ps :: [] ∧ plainKey.length = 32 ∧
      ps.length = 77 ∧ ∀ b ∈ ps, b ≠ 0 := by decide +kernel

theorem witness_SkgenChecksTheNonceAndAnswers160Bytes :
    (let c := cmd 0x00000010 (nonce.take 15) [] []
     Executable (holding c []) c [] ∧ c.a.length ≠ 16) ∧
    (Executable skgenReady skgenCommand [] ∧
      exec .skgen skgenReady = .next (completed skgenReady skgenCommand [] 0 skgenOut [])) :=
  ⟨by decide +kernel, by decide +kernel, test_skgen_oaep⟩

theorem witness_PencAnswersTheFrame :
    let s := holding pencCommand [.bytes [0x01, 0x02, 0x03]]
    Executable s pencCommand [] ∧ pencCommand.b.length = 32 ∧
      s.entropy = .bytes [0x01, 0x02, 0x03] :: [] := by decide +kernel

theorem witness_PayloadChecksInOrder :
    (let c := cmd 0x00000020 hello (keyK.take 31) []
     Executable (holding c []) c [] ∧ c.b.length ≠ 32) ∧
    (∀ n ∈ [15, 16, 31],
      let c := cmd 0x00000021 (frameF1.take n) keyK []
      Executable (holding c []) c [] ∧ c.b.length = 32 ∧
        (c.a.length < 16 ∨ (c.a.length - 16) % 16 ≠ 0 ∨ c.a.length = 16)) ∧
    (Executable (holding tampered []) tampered [] ∧ tampered.b.length = 32 ∧
      32 ≤ tampered.a.length ∧ tampered.a.length % 16 = 0 ∧
      unpad16 (cbcDec tampered.b (aes256Dec tampered.b (tampered.a.take 16)) (tampered.a.drop 16)) =
        none) :=
  ⟨by decide +kernel, by decide +kernel, by decide +kernel, by decide, by decide, by decide,
    tampered_plain⟩

theorem witness_PdecAnswersThePlaintext :
    Executable (holding pdecCommand []) pdecCommand [] ∧ pdecCommand.b.length = 32 ∧
      32 ≤ pdecCommand.a.length ∧ pdecCommand.a.length % 16 = 0 ∧
      unpad16 (cbcDec pdecCommand.b (aes256Dec pdecCommand.b (pdecCommand.a.take 16))
        (pdecCommand.a.drop 16)) = some hello :=
  ⟨by decide +kernel, by decide, by decide, by decide, frameF1_plain⟩

theorem witness_PayloadOutputLengths :
    Executable pencReady pencCommand [] ∧
    exec .penc pencReady = .next (completed pencReady pencCommand [] 0 frameF1 []) ∧
    Executable (holding pdecCommand []) pdecCommand [] ∧
    exec .pdec (holding pdecCommand []) =
      .next (completed (holding pdecCommand []) pdecCommand [] 0 hello []) :=
  ⟨by decide +kernel, test_penc_hello, by decide +kernel, test_pdec_hello⟩

theorem witness_PdecUndoesPenc :
    Executable pencReady pencCommand [] ∧
    exec .penc pencReady = .next (completed pencReady pencCommand [] 0 frameF1 []) ∧
    Executable (holding pdecCommand []) pdecCommand [] ∧ pdecCommand.a = frameF1 ∧
    pdecCommand.b = pencCommand.b :=
  ⟨by decide +kernel, test_penc_hello, by decide +kernel, rfl, rfl⟩

theorem witness_CredencAnswersTheEncryptedSecret :
    let ps := rep 0xab 8
    let s := holding smallCommand [.bytes ps]
    Executable s smallCommand [] ∧ hexDecode smallCommand.b = some smallModulus ∧
      hexDecode smallCommand.c = some [0x01, 0x00, 0x01] ∧ 0 < os2ip [0x01, 0x00, 0x01] ∧
      256 ^ (16 - 1) ≤ os2ip smallModulus ∧ os2ip smallModulus < 256 ^ 16 ∧
      smallCommand.a.length + 11 ≤ 16 ∧ s.entropy = .bytes ps :: [] ∧
      ps.length = 16 - smallCommand.a.length - 3 ∧ ∀ b ∈ ps, b ≠ 0 := by decide +kernel

theorem witness_CredencChecksInOrder :
    (let c := cmd 0x30 [] [0x7a] exponentHex
     Executable (holding c []) c [] ∧ hexDecode c.b = none) ∧
    (let c := cmd 0x30 [] smallHex [0x7a, 0x7a]
     Executable (holding c []) c [] ∧ hexDecode c.c = none) ∧
    (let c := cmd 0x30 [] [] exponentHex
     Executable (holding c []) c [] ∧ hexDecode c.b = some [] ∧
      hexDecode c.c = some [0x01, 0x00, 0x01] ∧ os2ip [] = 0) ∧
    (let c := cmd 0x30 [0x68, 0x69, 0x21, 0x21, 0x21, 0x21] smallHex exponentHex
     Executable (holding c []) c [] ∧ hexDecode c.b = some smallModulus ∧
      hexDecode c.c = some [0x01, 0x00, 0x01] ∧ 0 < os2ip smallModulus ∧
      0 < os2ip [0x01, 0x00, 0x01] ∧ os2ip smallModulus < 256 ^ (c.a.length + 10)) := by
  decide +kernel

theorem witness_CredencUsesNoServerKey :
    let s := holding smallCommand []
    exec .credenc s = .next { s with engine := .stalled (.nonzero 8) } :=
  eq_next_of_isNext (by decide +kernel)

/-! ### Witnesses: the primitives -/

theorem witness_AesDecryptionInvertsEncryption : keyK.length = 32 ∧ nonce.length = 16 := by decide

theorem witness_CbcDecryptionInvertsEncryption :
    (keyK.length = 32 ∧ nonce.length = 16 ∧ frameF1.length % 16 = 0) ∧
      16 * (0 + 1) ≤ frameF1.length ∧ 16 * (1 + 1) ≤ frameF1.length := by decide

theorem witness_DerivedIvIsDigestThenDraw :
    [(0x01 : Byte), 0x02, 0x03].length = 3 ∧ keyK.take 16 = (keyK.take 16 ++ rep 0x00 16).take 16 := by
  decide

theorem witness_OctetStringsAndIntegers : (255 : Nat) < 256 ^ 1 ∧ (0 : Nat) < 256 ^ 0 := by decide

theorem witness_RsaepIsTheModularPower : (1 : Nat) ≤ 3233 ∧ (1 : Nat) ≤ 17 ∧ (65 : Nat) < 3233 := by
  decide

theorem witness_OaepEncodingCanBeOpened :
    plainKey.length + 42 ≤ 74 ∧ (rep 0x55 20).length = 20 := by decide

theorem witness_HexDecodesDigitPairs :
    hexDecode [0x41, 0x42, 0x63, 0x64] = some [0xab, 0xcd] ∧
      [(0xab : Byte), 0xcd][0]? = some 0xab := by decide

theorem witness_PseudoInstructionsAssemble :
    literalBytes [] (.ascii hello) = some hello ∧ literalBytes [] (.rep 0x41 2) = some [0x41, 0x41] := by
  decide

end Sys2Proof.Tests
end

section
/-! PROOFS. The statements of spec/00_scope.md: byte strings and integers (rule R13), the fixed
configuration (rule R9), and the checksum as a polynomial division (rule R17). -/

namespace Sys2Proof.Machine

open Sys2Proof.Certificates

/-! ### Byte strings and integers (rule R13) -/

@[simp] theorem os2ip_nil : os2ip [] = 0 := rfl

/-- The fold of OS2IP from any start value: the start stands above all the bytes. -/
theorem foldl_os2ip (x : Bytes) (acc : Nat) :
    x.foldl (fun acc b => acc * 256 + b.toNat) acc = acc * 256 ^ x.length + os2ip x := by
  induction x generalizing acc with
  | nil => simp
  | cons b x ih =>
    have htail : os2ip (b :: x) = b.toNat * 256 ^ x.length + os2ip x := by
      simpa [os2ip] using ih b.toNat
    rw [List.foldl_cons, ih, htail, List.length_cons]
    ring

/-- The first byte is the most significant. -/
theorem os2ip_cons (b : Byte) (x : Bytes) :
    os2ip (b :: x) = b.toNat * 256 ^ x.length + os2ip x := by
  simpa [os2ip] using foldl_os2ip x b.toNat

theorem os2ip_eq_sum (x : Bytes) :
    os2ip x = ∑ i ∈ Finset.range x.length, (x.getD i 0).toNat * 256 ^ (x.length - 1 - i) := by
  induction x with
  | nil => rfl
  | cons b x ih =>
    rw [os2ip_cons, ih, List.length_cons, Finset.sum_range_succ', add_comm]
    refine congrArg₂ _ (Finset.sum_congr rfl fun i _ => ?_) rfl
    rw [List.getD_cons_succ, Nat.add_sub_cancel, Nat.sub_add_eq, Nat.sub_right_comm]

@[simp] theorem i2osp_length (v k : Nat) : (i2osp v k).length = k := by
  induction k with
  | zero => rfl
  | succ k ih => simp [i2osp, ih]

/-- I2OSP writes the low `k` bytes of any value, also of one that does not fit. -/
theorem os2ip_i2osp (v k : Nat) : os2ip (i2osp v k) = v % 256 ^ k := by
  induction k with
  | zero => simp [i2osp, Nat.mod_one]
  | succ k ih =>
    rw [i2osp, os2ip_cons, ih, i2osp_length, BitVec.toNat_ofNat, Nat.mod_pow_succ (b := 256),
      add_comm, mul_comm]

/-- The octet length is the least `k` with `n < 256^k`: the top bit of `n` is in byte `octlen n - 1`. -/
theorem lt_pow_iff_octlen_le (n k : Nat) : n < 256 ^ k ↔ octlen n ≤ k := by
  by_cases hn : n = 0
  · simp [octlen, hn]
  · have hpow : 256 ^ k = 2 ^ (8 * k) := pow_mul 2 8 k ▸ rfl
    rw [octlen, if_neg hn, hpow, ← Nat.log2_lt hn]
    omega

/-- Settles O51: the sum, the inverse and the octet length each have their lemma. -/
theorem octetStringsAndIntegers : Obligations.OctetStringsAndIntegers := by
  refine ⟨os2ip_eq_sum, fun v k hv => ⟨i2osp_length v k, ?_⟩, lt_pow_iff_octlen_le⟩
  rw [os2ip_i2osp, Nat.mod_eq_of_lt hv]

/-! ### The configuration (rules R9, R28, R215) -/

/-- A result that, where it is a next state, has the configuration and the RNG_LIVE of `s`. -/
def KeepsConfig (s : State) (r : Result) : Prop :=
  ∀ t, r = .next t → t.cfg = s.cfg ∧ t.rngLive = s.rngLive

theorem keepsConfig_next {s t : State} (hcfg : t.cfg = s.cfg) (hlive : t.rngLive = s.rngLive) :
    KeepsConfig s (.next t) := by
  rintro _ ⟨⟩
  exact ⟨hcfg, hlive⟩

theorem keepsConfig_fault (s : State) (f : Fault) : KeepsConfig s (.fault f) :=
  fun _ h => by cases h

theorem keepsConfig_refused (s : State) (r : Refusal) : KeepsConfig s (.refused r) :=
  fun _ h => by cases h

/-- The last way an execution can end is a fault; every other is a state with the same CFG. -/
theorem exec_keepsConfig (i : Instr) (s : State) : KeepsConfig s (exec i s) := by
  rcases exec_cases i s with ⟨-, h⟩ | ⟨c, rest, -, ⟨-, h⟩ | ⟨-, -, h⟩ | ⟨-, -, st, -, h⟩ |
    ⟨-, ⟨result, out, used, q, -, -, h⟩ | ⟨used, q, -, h⟩ | ⟨req, -, h⟩ | ⟨f, -, h⟩⟩⟩
  on_goal 8 => exact h ▸ keepsConfig_fault s f
  all_goals exact h ▸ keepsConfig_next rfl rfl

theorem answerIllegal_keepsConfig (s : State) : KeepsConfig s (answerIllegal s) := by
  rcases answerIllegal_cases s with ⟨-, h⟩ | ⟨c, rest, -, ⟨-, h⟩ | ⟨-, -, h⟩ | ⟨-, -, h⟩⟩
  all_goals exact h ▸ keepsConfig_next rfl rfl

theorem engineStep_keepsConfig (s : State) : KeepsConfig s (engineStep s) := by
  rcases engineStep_cases s with ⟨-, h⟩ | ⟨c, rest, i, -, -, h⟩ | ⟨c, rest, e, -, -, h⟩
  · exact h ▸ keepsConfig_next rfl rfl
  · exact h ▸ exec_keepsConfig i s
  · exact h ▸ answerIllegal_keepsConfig s

theorem issue_keepsConfig (c : Command) (s : State) : KeepsConfig s (issue c s) := by
  rcases issue_cases c s with ⟨-, h⟩ | ⟨-, h⟩
  · exact h ▸ keepsConfig_next rfl rfl
  · exact h ▸ keepsConfig_refused s _

theorem takeTurn_keepsConfig (t : Turn) (s : State) : KeepsConfig s (takeTurn t s) := by
  cases t with
  | issue c => exact issue_keepsConfig c s
  | reset => exact keepsConfig_next (resetBlock_cfg s) (resetBlock_rngLive s)
  | engine => exact engineStep_keepsConfig s
  | arbitrate h => exact keepsConfig_next (arbitrate_cfg h s) (arbitrate_rngLive h s)
  | generator => exact keepsConfig_next (genStep_cfg s) (genStep_rngLive s)
  | entropy a => exact keepsConfig_next (supply_cfg a s) (supply_rngLive a s)
  | source => exact keepsConfig_next (sourceStep_cfg s) (sourceStep_rngLive s)
  | idle => exact keepsConfig_next rfl rfl

/-- Fixing the turn changes nothing but the schedule, in a block without a reset too (rule R231). -/
theorem nextTurn_state (s : State) : (nextTurn s).2 = { s with schedule := s.schedule.tail } := by
  unfold nextTurn
  cases hs : s.schedule with
  | nil =>
    show s = { s with schedule := [] }
    rw [← hs]
  | cons t rest => rfl

/-- Settles O25: the turn only shortens the schedule, and no agent's turn writes CFG or RNG_LIVE. -/
theorem configurationIsFixed : Obligations.ConfigurationIsFixed := by
  intro s t hstep
  have hturn := takeTurn_keepsConfig (nextTurn s).1 (nextTurn s).2 t hstep
  rwa [nextTurn_state] at hturn

/-! ### The checksum (rules R17, R81, R83) -/

theorem crcBit_of_even {x : Word} (h : x.getLsbD 0 = false) : crcBit x = x >>> 1 := by
  rw [crcBit, h, if_neg Bool.false_ne_true]

theorem crcBit_of_odd {x : Word} (h : x.getLsbD 0 = true) :
    crcBit x = 0xEDB88320 ^^^ (x >>> 1) := by
  rw [crcBit, h, if_pos rfl]

/-- A round of the division is linear over exclusive or. -/
theorem crcBit_xor (x y : Word) : crcBit (x ^^^ y) = crcBit x ^^^ crcBit y := by
  have hxor : (x ^^^ y).getLsbD 0 = (x.getLsbD 0 ^^ y.getLsbD 0) := BitVec.getLsbD_xor
  cases hx : x.getLsbD 0 <;> cases hy : y.getLsbD 0 <;> rw [hx, hy] at hxor
  case false.false =>
    rw [crcBit_of_even hx, crcBit_of_even hy, crcBit_of_even hxor, BitVec.ushiftRight_xor_distrib]
  case false.true =>
    rw [crcBit_of_even hx, crcBit_of_odd hy, crcBit_of_odd hxor, BitVec.ushiftRight_xor_distrib]
    ac_rfl
  case true.false =>
    rw [crcBit_of_odd hx, crcBit_of_even hy, crcBit_of_odd hxor, BitVec.ushiftRight_xor_distrib]
    ac_rfl
  case true.true =>
    rw [crcBit_of_odd hx, crcBit_of_odd hy, crcBit_of_even hxor, BitVec.ushiftRight_xor_distrib]
    calc (x >>> 1) ^^^ (y >>> 1)
      _ = (0xEDB88320 ^^^ 0xEDB88320) ^^^ ((x >>> 1) ^^^ (y >>> 1)) := by
        rw [BitVec.xor_self, BitVec.zero_xor]
      _ = (0xEDB88320 ^^^ (x >>> 1)) ^^^ (0xEDB88320 ^^^ (y >>> 1)) := by ac_rfl

theorem crcBits_xor (n : Nat) (x y : Word) :
    crcBits n (x ^^^ y) = crcBits n x ^^^ crcBits n y := by
  induction n generalizing x y with
  | zero => rfl
  | succ n ih => simp only [crcBits, crcBit_xor, ih]

/-- While the bits shifted out are zero, the polynomial never enters: the rounds only shift. -/
theorem crcBits_of_low_zero {n : Nat} {y : Word} (h : ∀ i < n, y.getLsbD i = false) :
    crcBits n y = y >>> n := by
  induction n generalizing y with
  | zero => simp [crcBits]
  | succ n ih =>
    have hlow : ∀ i < n, (y >>> 1).getLsbD i = false := fun i hi => by
      rw [BitVec.getLsbD_ushiftRight]
      exact h (1 + i) (by omega)
    rw [crcBits, crcBit_of_even (h 0 (by omega)), ih hlow, ← BitVec.shiftRight_add, Nat.add_comm]

/-- Eight rounds by the table: the entry of the low byte, with the high bytes shifted down. -/
theorem crcBits_eight_eq_crcEntry (x : Word) :
    crcBits 8 x = crcEntry (x.toNat % 256) ^^^ (x >>> 8) := by
  have hsplit : x = BitVec.ofNat 32 (x.toNat % 2 ^ 8) ^^^ (x >>> 8) <<< 8 := by
    refine BitVec.eq_of_getLsbD_eq fun i hi => ?_
    rw [BitVec.getLsbD_xor, BitVec.getLsbD_ofNat, Nat.testBit_mod_two_pow, BitVec.testBit_toNat,
      BitVec.getLsbD_shiftLeft, BitVec.getLsbD_ushiftRight]
    by_cases hlow : i < 8
    · simp [hi, hlow]
    · simp [hi, hlow, show 8 + (i - 8) = i by omega]
  have hshift : crcBits 8 ((x >>> 8) <<< 8) = x >>> 8 := by
    rw [crcBits_of_low_zero fun i hi => by simp [hi]]
    refine BitVec.eq_of_getLsbD_eq fun i hi => ?_
    simpa using BitVec.lt_of_getLsbD
  conv_lhs => rw [hsplit]
  rw [crcBits_xor, hshift]
  rfl

/-- The index of rule R83 is the low byte as a number. -/
theorem crcIndex_eq_mod (crc : Word) (b : Byte) :
    crcIndex crc b = (crc ^^^ b.zeroExtend 32).toNat % 256 := by
  rw [crcIndex, BitVec.toNat_and]
  exact Nat.and_two_pow_sub_one_eq_mod _ 8

/-- Over the complete table the loop reads every entry, and each is the one of rule R81. -/
theorem crcLoop_builtTable (crc : Word) (x : Bytes) :
    crcLoop (builtTable 256) crc x = .ok (tableCrc crc x) := by
  induction x generalizing crc with
  | nil => rfl
  | cons b x ih =>
    have hlt : crcIndex crc b < 256 := by
      rw [crcIndex_eq_mod]
      omega
    rw [crcLoop, builtTable_read, if_pos hlt, tableCrc, ← crcIndex_eq_mod]
    exact ih _

/-- Eight rounds on a byte exclusive-ored into the register are one step of the table's loop. -/
theorem tableCrc_eq_tableFreeCrc (crc : Word) (x : Bytes) : tableCrc crc x = tableFreeCrc crc x := by
  induction x generalizing crc with
  | nil => rfl
  | cons b x ih =>
    have hhigh : (crc ^^^ b.zeroExtend 32) >>> 8 = crc >>> 8 := by
      ext i hi
      simp
    rw [tableCrc, tableFreeCrc, ih, crcBits_eight_eq_crcEntry, hhigh]

/-- Rule R83 in a block of the invariant: a ready table is the complete one, so the loop ends. -/
theorem exec_crc32_of_tableInv {s : State} {c : Command} {rest : List Command} (hinv : TableInv s)
    (hx : Executable s c rest) :
    exec .crc32 s = .next (completed s c rest (~~~ (tableCrc 0xFFFFFFFF c.a)) [] s.entropy) := by
  obtain ⟨-, htable, hvalid⟩ := hinv
  obtain ⟨-, -, hready, -⟩ := id hx
  have hfull : s.table = builtTable 256 := by rw [htable, hvalid.mp hready]
  have hop : crc32Op c s = .done (~~~ (tableCrc 0xFFFFFFFF c.a)) [] s.entropy := by
    simp only [crc32Op, hfull, crcLoop_builtTable]
  rw [exec_eq_execute, execute_of_executable hx, operation, hop]
  rfl

/-- Settles O34: the table's loop is the table-free one, by the linearity of the division's rounds. -/
theorem crc32IsTheReflectedPolynomialDivision :
    Obligations.Crc32IsTheReflectedPolynomialDivision := by
  intro s c rest hinv hx
  rw [exec_crc32_of_tableInv hinv hx, tableCrc_eq_tableFreeCrc]

end Sys2Proof.Machine
end

section
/-! PROOFS. The statements of spec/10_state.md about the turns of the agents: the invariant (rules R26, R27,
R31, R60, R232), the fatal latch (rule R27), the reset (rules R230, R232), arbitration (rule R48) and the
entropy source (rule R30). -/

namespace Sys2Proof.Machine

open Sys2Proof.Certificates

/-! ### The turn taken -/

theorem step_scheduled {s : State} {t : Turn} {l : List Turn} (hs : s.schedule = t :: l)
    (hp : s.powered = true) : step s = takeTurn t { s with schedule := l } := by
  rw [step, nextTurn_scheduled hs hp]

theorem step_chosen {s : State} (hs : s.schedule = []) (hp : s.powered = true) :
    step s = takeTurn (chooseTurn s) s := by
  rw [step, nextTurn_chosen hs hp]

/-- The turn is the one scheduled, the one chosen, or none. -/
theorem nextTurn_turn_cases (s : State) :
    (nextTurn s).1 = .idle ∨ (nextTurn s).1 = chooseTurn s ∨
      s.schedule.head? = some (nextTurn s).1 := by
  unfold nextTurn
  cases s.schedule with
  | nil =>
    dsimp only
    split
    · exact .inr (.inl rfl)
    · exact .inl rfl
  | cons t l =>
    dsimp only
    split
    · exact .inr (.inr rfl)
    · exact .inl rfl

/-- No agent takes a reset of its own accord. -/
theorem chooseTurn_ne_reset (s : State) : chooseTurn s ≠ .reset := by
  unfold chooseTurn
  dsimp only
  repeat' split
  all_goals nofun

/-- A reset happens only where the schedule dictates it. -/
theorem nextTurn_ne_reset {s : State} (h : s.schedule.head? ≠ some .reset) :
    (nextTurn s).1 ≠ .reset := by
  rcases nextTurn_turn_cases s with hidle | hchosen | hhead
  · rw [hidle]
    nofun
  · rw [hchosen]
    exact chooseTurn_ne_reset s
  · exact fun heq => h (heq ▸ hhead)

/-! ### What the agents' turns do -/

theorem not_fatal_of_executable {s : State} {c : Command} {rest : List Command}
    (h : Executable s c rest) : s.fatal = false := by
  obtain ⟨-, hf, -, -⟩ := h
  exact hf


theorem sourceStep_stalled {s : State} {req : DrawReq} (h : s.engine = .stalled req) :
    sourceStep s =
      { s with
        entropy := s.entropy ++ [freeAnswer req s.drawCount]
        drawCount := s.drawCount + 1
        engine := .resumed } := by
  simp only [sourceStep, h]

theorem sourceStep_not_stalled {s : State} (h : ∀ req, s.engine ≠ .stalled req) :
    sourceStep s = s := by
  unfold sourceStep
  split
  · next req heq => exact absurd heq (h req)
  · rfl

@[simp] theorem resume_stalled (req : DrawReq) : resume (.stalled req) = .resumed := rfl

theorem resume_not_stalled {e : EngineStatus} (h : ∀ req, e ≠ .stalled req) : resume e = e := by
  cases e with
  | stalled req => exact absurd rfl (h req)
  | free => rfl
  | resumed => rfl

/-- An answer does not end the occupation of the engine (rule R31). -/
theorem resume_eq_free {e : EngineStatus} : resume e = .free ↔ e = .free := by
  cases e <;> simp [resume]

/-- `a` is an answer that rule R30 admits to the request: EXHAUSTED, or bytes of the right form. -/
def Admits (req : DrawReq) (a : Answer) : Prop :=
  a = .exhausted ∨ ∃ v, a = .bytes v ∧ answersReq req v = true

/-- The residue that stands for a free byte of `DrawNZ` is in 1..255. -/
theorem freeAnswerByte_nonzero (n k j : Nat) : freeAnswerByte (.nonzero n) k j ≠ 0 := by
  have hlt : (Config.freeByte k j).toNat % 255 + 1 < 256 := by omega
  intro h
  have h0 : ((Config.freeByte k j).toNat % 255 + 1) % 256 = 0 := congrArg BitVec.toNat h
  omega

/-- What the source answers of its own accord has the form that rule R30 asks for. -/
theorem freeAnswer_admits (req : DrawReq) (k : Nat) : Admits req (freeAnswer req k) := by
  unfold freeAnswer
  split
  · exact .inl rfl
  · refine .inr ⟨_, rfl, ?_⟩
    cases req with
    | any n => simp [answersReq_any, reqLength]
    | nonzero n =>
      refine answersReq_nonzero.mpr ⟨by simp [reqLength], ?_⟩
      simpa using fun j _ => freeAnswerByte_nonzero n k j

/-- With the engine free, the command of a host that has one is put first. -/
theorem arbitrate_of_free {s : State} {host : Nat} (hf : s.engine = .free)
    (hd : ∃ d ∈ s.pending, d.host = host) :
    (arbitrate host s).pending.head?.map (fun d => d.host) = some host := by
  obtain ⟨c, hc⟩ : ∃ c, s.pending.find? (fun d => d.host == host) = some c :=
    Option.isSome_iff_exists.mp (by simpa using hd)
  have hhost : c.host = host := by simpa using List.find?_some hc
  simp [arbitrate, hf, hc, hhost]

/-- Arbitration writes nothing but the order of the outstanding commands. -/
theorem arbitrate_eq_pending (host : Nat) (s : State) :
    arbitrate host s = { s with pending := (arbitrate host s).pending } := by
  unfold arbitrate
  split <;> rfl

/-- What a reset leaves, every field written out (rules R230 to R232). -/
theorem resetBlock_eq (s : State) :
    resetBlock s =
      { table := [], genIdx := 0, tblValid := false, fatal := keyMalformed s.cfg,
        fatalCause := if keyMalformed s.cfg then 0x32 else 0x00, cfg := s.cfg, powered := true,
        pending := [], engine := .free, entropy := s.entropy, rngLive := s.rngLive,
        drawCount := s.drawCount, delivered := s.delivered,
        dropped := s.dropped ++ s.pending.map (fun c => c.host), schedule := s.schedule } := by
  unfold resetBlock resetCheck
  dsimp only
  cases keyMalformed s.cfg <;> rfl

/-! ### The engine's turn (rule R209) -/

/-- The checks of rule R209 in their order, for a legal word. -/
theorem execute_cons (op : Command → State → Reply) {s : State} {c : Command} {rest : List Command}
    (hp : s.pending = c :: rest) :
    execute op s =
      if s.fatal then .next (raise .errHalted c rest s)
      else if s.tblValid then
        if operandTooLong s.cfg c then .next (raise .errLength c rest s)
        else commit c rest s (op c s)
      else .next s := by
  simp only [execute, whenReady, hp]

theorem engineStep_of_legal {s : State} {c : Command} {rest : List Command} {i : Instr}
    (hp : s.pending = c :: rest) (hd : decode c.word = .ok i) : engineStep s = exec i s := by
  simp [engineStep, fetch, hp, hd]

theorem engineStep_of_illegal {s : State} {c : Command} {rest : List Command} {e : DecodeError}
    (hp : s.pending = c :: rest) (hd : decode c.word = .error e) : engineStep s = answerIllegal s := by
  simp [engineStep, fetch, hp, hd]

/-- The checks of rule R209 in their order, for an illegal word. -/
theorem answerIllegal_cons {s : State} {c : Command} {rest : List Command}
    (hp : s.pending = c :: rest) :
    answerIllegal s =
      if s.fatal then .next (raise .errHalted c rest s)
      else if s.tblValid then .next (raise .errIllegal c rest s)
      else .next s := by
  simp only [answerIllegal, whenReady, hp]

/-- With the table not ready and the block not fatal, the engine's turn changes nothing (rule R31). -/
theorem engineStep_of_table_not_ready {s : State} (hf : s.fatal = false) (ht : s.tblValid = false) :
    engineStep s = .next s := by
  have hfatal : ¬ s.fatal = true := by simp [hf]
  have hready : ¬ s.tblValid = true := by simp [ht]
  rcases engineStep_cases s with ⟨-, h⟩ | ⟨c, rest, i, hp, -, h⟩ | ⟨c, rest, e, hp, -, h⟩
  · exact h
  · rw [h, exec_eq_execute, execute_cons _ hp, if_neg hfatal, if_neg hready]
  · rw [h, answerIllegal_cons hp, if_neg hfatal, if_neg hready]

/-! ### The invariant (rules R26, R27, R31, R60, R232) -/

/-- A result that, where it is a next state, is a state of the invariant. -/
def InvAfter (r : Result) : Prop := ∀ t, r = .next t → Inv t

theorem invAfter_next {t : State} (h : Inv t) : InvAfter (.next t) := by
  rintro _ ⟨⟩
  exact h

theorem invAfter_fault (f : Fault) : InvAfter (.fault f) := fun _ h => by cases h

theorem invAfter_refused (r : Refusal) : InvAfter (.refused r) := fun _ h => by cases h

/-- A command that ends frees the engine, and the hosts left are still distinct. -/
theorem transactionInv_ended {s t : State} {c : Command} {rest : List Command}
    (h : TransactionInv s) (hp : s.pending = c :: rest) (ht : t.pending = rest)
    (he : t.engine = .free) : TransactionInv t := by
  obtain ⟨hnodup, -⟩ := h
  rw [hp, List.map_cons, List.nodup_cons] at hnodup
  exact ⟨ht ▸ hnodup.2, fun hne => absurd he hne⟩

theorem completed_inv {s : State} {c : Command} {rest : List Command} (h : Inv s)
    (hp : s.pending = c :: rest) (result : Word) (out : Bytes) (q : List Answer) :
    Inv (completed s c rest result out q) := by
  obtain ⟨hpow, htab, hfat, htx⟩ := h
  exact ⟨hpow, htab, hfat, transactionInv_ended htx hp rfl rfl⟩

theorem rejected_inv {s : State} {c : Command} {rest : List Command} (h : Inv s)
    (hp : s.pending = c :: rest) (st : Status) (result : Word) :
    Inv (rejected s c rest st result) := by
  obtain ⟨hpow, htab, hfat, htx⟩ := h
  exact ⟨hpow, htab, hfat, transactionInv_ended htx hp rfl rfl⟩

/-- A block of the invariant that is not fatal has a key that passed the reset check, so the cause 0x30
of an exhaustion contradicts no 0x32. -/
theorem keyMalformed_of_not_fatal {s : State} (h : FatalInv s) (hf : s.fatal = false) :
    keyMalformed s.cfg = false := by
  obtain ⟨-, -, hkey⟩ := h
  rw [Bool.eq_false_iff]
  intro hmal
  simp [hkey hmal] at hf

theorem exhaustedState_inv {s : State} {c : Command} {rest : List Command} (h : Inv s)
    (hp : s.pending = c :: rest) (hf : s.fatal = false) (q : List Answer) :
    Inv (exhaustedState s c rest q) := by
  obtain ⟨hpow, htab, hfat, htx⟩ := h
  have hkey : keyMalformed s.cfg = false := keyMalformed_of_not_fatal hfat hf
  refine ⟨hpow, htab, ⟨nofun, fun _ => .inl rfl, fun hmal => ?_⟩, transactionInv_ended htx hp rfl rfl⟩
  exact absurd hmal (by simp [exhaustedState, hkey])

/-- A command that stalls has passed the first two checks of rule R209. -/
theorem stalled_inv {s : State} {c : Command} {rest : List Command} (h : Inv s)
    (hx : Executable s c rest) (req : DrawReq) : Inv { s with engine := .stalled req } := by
  obtain ⟨hpow, htab, hfat, hnodup, -⟩ := h
  obtain ⟨hp, hf, hready, -⟩ := hx
  exact ⟨hpow, htab, hfat, hnodup, fun _ => ⟨by simp [hp], hf, hready⟩⟩

theorem exec_inv (i : Instr) {s : State} (h : Inv s) : InvAfter (exec i s) := by
  rcases exec_cases i s with ⟨-, he⟩ | ⟨c, rest, hp, ⟨-, he⟩ | ⟨-, -, he⟩ | ⟨-, -, st, -, he⟩ |
    ⟨hx, ⟨result, out, used, q, -, -, he⟩ | ⟨used, q, -, he⟩ | ⟨req, -, he⟩ | ⟨f, -, he⟩⟩⟩
  all_goals rw [he]
  · exact invAfter_next h
  · exact invAfter_next (rejected_inv h hp _ _)
  · exact invAfter_next h
  · exact invAfter_next (rejected_inv h hp st 0)
  · exact invAfter_next (completed_inv h hp result out q)
  · exact invAfter_next (exhaustedState_inv h hp (not_fatal_of_executable hx) q)
  · exact invAfter_next (stalled_inv h hx req)
  · exact invAfter_fault f

theorem answerIllegal_inv {s : State} (h : Inv s) : InvAfter (answerIllegal s) := by
  rcases answerIllegal_cases s with ⟨-, he⟩ | ⟨c, rest, hp, ⟨-, he⟩ | ⟨-, -, he⟩ | ⟨-, -, he⟩⟩
  all_goals rw [he]
  · exact invAfter_next h
  · exact invAfter_next (rejected_inv h hp _ _)
  · exact invAfter_next h
  · exact invAfter_next (rejected_inv h hp _ _)

theorem engineStep_inv {s : State} (h : Inv s) : InvAfter (engineStep s) := by
  rcases engineStep_cases s with ⟨-, he⟩ | ⟨c, rest, i, -, -, he⟩ | ⟨c, rest, e, -, -, he⟩
  all_goals rw [he]
  · exact invAfter_next h
  · exact exec_inv i h
  · exact answerIllegal_inv h

/-- A host that has no command outstanding may add one (rule R60). -/
theorem issue_inv (c : Command) {s : State} (h : Inv s) : InvAfter (issue c s) := by
  rcases issue_cases c s with ⟨hnew, he⟩ | ⟨-, he⟩
  all_goals rw [he]
  · obtain ⟨hpow, htab, hfat, hnodup, hocc⟩ := h
    refine invAfter_next ⟨hpow, htab, hfat, ?_, fun hne => ?_⟩
    · rw [List.map_append]
      exact hnodup.append (List.nodup_singleton _) (by simpa using hnew)
    · obtain ⟨-, hf, hready⟩ := hocc hne
      exact ⟨by simp, hf, hready⟩
  · exact invAfter_refused _

theorem resetBlock_inv (s : State) : Inv (resetBlock s) := by
  rw [resetBlock_eq]
  refine ⟨rfl, ⟨by simp, rfl, by simp⟩, ⟨?_, ?_, ?_⟩, List.nodup_nil, fun hne => absurd rfl hne⟩
  all_goals intro hmal; dsimp only at hmal; simp [hmal]

/-- Reordering keeps the hosts distinct, and a command that occupies the engine keeps it. -/
theorem arbitrate_inv (host : Nat) {s : State} (h : Inv s) : Inv (arbitrate host s) := by
  obtain ⟨hpow, htab, hfat, hnodup, hocc⟩ := id h
  by_cases hfree : s.engine = .free
  · rw [arbitrate_eq_pending]
    refine ⟨hpow, htab, hfat, ?_, fun hne => absurd hfree hne⟩
    exact (((arbitrate_pending_perm host s).map _).nodup_iff).mpr hnodup
  · rwa [arbitrate_of_occupied hfree]

/-- The generator adds the next entry, and the 256th makes the table valid (rule R81). -/
theorem genStep_inv {s : State} (h : Inv s) : Inv (genStep s) := by
  obtain ⟨hpow, ⟨-, htable, hvalid⟩, hfat, hnodup, hocc⟩ := id h
  rcases genStep_cases s with ⟨hlt, he⟩ | ⟨-, he⟩
  · have hnot : s.tblValid = false := Bool.eq_false_iff.mpr fun ht => absurd (hvalid.mp ht) (by omega)
    have hfree : s.engine = .free := by
      by_contra hne
      obtain ⟨-, -, hready⟩ := hocc hne
      simp [hnot] at hready
    rw [he]
    refine ⟨hpow, ⟨hlt, ?_, ?_⟩, hfat, hnodup, fun hne => absurd hfree hne⟩
    · simp only [htable, builtTable_succ]
    · simp [tblValidAfter, hnot]
  · rwa [he]

theorem supply_inv (a : Answer) {s : State} (h : Inv s) : Inv (supply a s) := by
  obtain ⟨hpow, htab, hfat, hnodup, hocc⟩ := h
  exact ⟨hpow, htab, hfat, hnodup, fun hne => hocc fun hfree => hne (resume_eq_free.mpr hfree)⟩

theorem sourceStep_inv {s : State} (h : Inv s) : Inv (sourceStep s) := by
  by_cases hst : ∃ req, s.engine = .stalled req
  · obtain ⟨req, hreq⟩ := hst
    obtain ⟨hpow, htab, hfat, hnodup, hocc⟩ := h
    rw [sourceStep_stalled hreq]
    exact ⟨hpow, htab, hfat, hnodup, fun _ => hocc (by simp [hreq])⟩
  · rwa [sourceStep_not_stalled (by simpa using hst)]

theorem takeTurn_inv (t : Turn) {s : State} (h : Inv s) : InvAfter (takeTurn t s) := by
  cases t with
  | issue c => exact issue_inv c h
  | reset => exact invAfter_next (resetBlock_inv s)
  | engine => exact engineStep_inv h
  | arbitrate host => exact invAfter_next (arbitrate_inv host h)
  | generator => exact invAfter_next (genStep_inv h)
  | entropy a => exact invAfter_next (supply_inv a h)
  | source => exact invAfter_next (sourceStep_inv h)
  | idle => exact invAfter_next h

/-- Settles O22: the turn only shortens the schedule, and each agent's turn keeps the invariant. -/
theorem everyStepKeepsTheInvariant : Obligations.EveryStepKeepsTheInvariant := by
  intro s t hinv hstep
  refine takeTurn_inv (nextTurn s).1 (s := (nextTurn s).2) ?_ t hstep
  rw [nextTurn_state]
  exact hinv

/-! ### The reset (rules R28, R230, R232) -/

/-- A value of `k` bytes is below `256^k`. -/
theorem toNat_lt_pow_bytes {w k : Nat} (h : w = 8 * k) (x : BitVec w) : x.toNat < 256 ^ k := by
  subst h
  exact x.isLt.trans_eq (pow_mul 2 8 k)

theorem toNat_ne_zero_iff {w : Nat} {x : BitVec w} : x.toNat ≠ 0 ↔ x ≠ 0 := by
  rw [ne_eq, ne_eq, BitVec.toNat_eq]
  simp

/-- The reset check of rule R232 as bounds on SERVER_N. -/
theorem keyMalformed_iff (cfg : Cfg) :
    keyMalformed cfg = true ↔
      ¬ (256 ^ 127 ≤ cfg.serverN.toNat ∧ cfg.serverN.toNat < 256 ^ 128) ∨ cfg.serverE = 0 := by
  have hlow := lt_pow_iff_octlen_le cfg.serverN.toNat 127
  have hhigh := lt_pow_iff_octlen_le cfg.serverN.toNat 128
  have hlen : octlen cfg.serverN.toNat = 128 ↔
      256 ^ 127 ≤ cfg.serverN.toNat ∧ cfg.serverN.toNat < 256 ^ 128 := by
    rw [hhigh, ← not_lt, hlow]
    omega
  rw [keyMalformed, decide_eq_true_iff, ne_eq, hlen]

/-- A key in the ranges of rule R28 passes the reset check. -/
theorem keyMalformed_of_legal {cfg : Cfg} (h : CfgLegal cfg) : keyMalformed cfg = false := by
  obtain ⟨hn, he, -⟩ := h
  have hlow : 256 ^ 127 ≤ cfg.serverN.toNat :=
    calc 256 ^ 127
      _ = 2 ^ (8 * 127) := (pow_mul 2 8 127).symm
      _ ≤ 2 ^ 1023 := pow_le_pow_right₀ one_le_two (by omega)
      _ ≤ cfg.serverN.toNat := hn
  have hhigh : cfg.serverN.toNat < 256 ^ 128 := toNat_lt_pow_bytes (by norm_num) cfg.serverN
  have hexp : cfg.serverE ≠ 0 := toNat_ne_zero_iff.mp (Nat.one_le_iff_ne_zero.mp he)
  rw [Bool.eq_false_iff, ne_eq, keyMalformed_iff]
  exact fun hmal => hmal.elim (fun hbad => hbad ⟨hlow, hhigh⟩) hexp

/-- Settles O9: the reset's state is `resetBlock_eq`, and it is malformed by the check's bounds. -/
theorem resetClearsAndChecksTheKey : Obligations.ResetClearsAndChecksTheKey := by
  intro s l hs
  refine ⟨keyMalformed s.cfg, keyMalformed_iff s.cfg, keyMalformed_of_legal, ?_⟩
  rw [step, nextTurn_reset hs]
  exact congrArg Host.Outcome.next (resetBlock_eq { s with schedule := l })

/-! ### The fatal latch (rules R27, R205, R206) -/

/-- A result that, where it is a next state, has kept FATAL with its cause where it was set, and has set
it only by an `ERR_RNG` response. -/
def KeepsLatch (s : State) (r : Result) : Prop :=
  ∀ t, r = .next t →
    (s.fatal = true → t.fatal = true ∧ t.fatalCause = s.fatalCause) ∧
    (s.fatal = false → t.fatal = true → t.fatalCause = 0x30 ∧ lastStatus t = some .errRng)

theorem keepsLatch_next {s t : State} (hf : t.fatal = s.fatal) (hc : t.fatalCause = s.fatalCause) :
    KeepsLatch s (.next t) := by
  rintro _ ⟨⟩
  exact ⟨fun h => ⟨hf.trans h, hc⟩, fun h ht => by simp [hf, h] at ht⟩

theorem keepsLatch_fault (s : State) (f : Fault) : KeepsLatch s (.fault f) :=
  fun _ h => by cases h

theorem keepsLatch_refused (s : State) (r : Refusal) : KeepsLatch s (.refused r) :=
  fun _ h => by cases h

theorem keepsLatch_exhausted {s : State} (hf : s.fatal = false) (c : Command) (rest : List Command)
    (q : List Answer) : KeepsLatch s (.next (exhaustedState s c rest q)) := by
  rintro _ ⟨⟩
  exact ⟨fun h => by simp [hf] at h, fun _ _ => ⟨rfl, by simp [lastStatus, exhaustedState]⟩⟩

theorem exec_keepsLatch (i : Instr) (s : State) : KeepsLatch s (exec i s) := by
  rcases exec_cases i s with ⟨-, he⟩ | ⟨c, rest, -, ⟨-, he⟩ | ⟨-, -, he⟩ | ⟨-, -, st, -, he⟩ |
    ⟨hx, ⟨result, out, used, q, -, -, he⟩ | ⟨used, q, -, he⟩ | ⟨req, -, he⟩ | ⟨f, -, he⟩⟩⟩
  all_goals rw [he]
  on_goal 8 => exact keepsLatch_fault s f
  on_goal 6 => exact keepsLatch_exhausted (not_fatal_of_executable hx) c rest q
  all_goals exact keepsLatch_next rfl rfl

theorem answerIllegal_keepsLatch (s : State) : KeepsLatch s (answerIllegal s) := by
  rcases answerIllegal_cases s with ⟨-, he⟩ | ⟨c, rest, -, ⟨-, he⟩ | ⟨-, -, he⟩ | ⟨-, -, he⟩⟩
  all_goals exact he ▸ keepsLatch_next rfl rfl

theorem engineStep_keepsLatch (s : State) : KeepsLatch s (engineStep s) := by
  rcases engineStep_cases s with ⟨-, he⟩ | ⟨c, rest, i, -, -, he⟩ | ⟨c, rest, e, -, -, he⟩
  · exact he ▸ keepsLatch_next rfl rfl
  · exact he ▸ exec_keepsLatch i s
  · exact he ▸ answerIllegal_keepsLatch s

theorem issue_keepsLatch (c : Command) (s : State) : KeepsLatch s (issue c s) := by
  rcases issue_cases c s with ⟨-, he⟩ | ⟨-, he⟩
  · exact he ▸ keepsLatch_next rfl rfl
  · exact he ▸ keepsLatch_refused s _

theorem takeTurn_keepsLatch {t : Turn} (ht : t ≠ .reset) (s : State) :
    KeepsLatch s (takeTurn t s) := by
  cases t with
  | issue c => exact issue_keepsLatch c s
  | reset => exact absurd rfl ht
  | engine => exact engineStep_keepsLatch s
  | arbitrate host => exact keepsLatch_next (arbitrate_fatal host s) (arbitrate_fatalCause host s)
  | generator => exact keepsLatch_next (genStep_fatal s) (genStep_fatalCause s)
  | entropy a => exact keepsLatch_next rfl rfl
  | source => exact keepsLatch_next (sourceStep_fatal s) (sourceStep_fatalCause s)
  | idle => exact keepsLatch_next rfl rfl

/-- Settles O13: without a scheduled reset the turn is none, and every other agent's turn keeps the
latch. -/
theorem fatalIsStickyAndSetByExhaustion : Obligations.FatalIsStickyAndSetByExhaustion := by
  intro s t hstep hno
  have hturn := takeTurn_keepsLatch (nextTurn_ne_reset hno) (nextTurn s).2 t hstep
  rwa [nextTurn_state] at hturn

/-! ### Arbitration and the hold for the table (rules R31, R48, R209) -/

/-- Settles O29: a taken-up command is moved to the front, which is a permutation. -/
theorem arbitrationReordersUnlessOccupied : Obligations.ArbitrationReordersUnlessOccupied := by
  intro s host l hp hs
  refine ⟨(arbitrate host { s with schedule := l }).pending, ?_, arbitrate_pending_perm host _,
    fun hocc => ?_, fun hfree hd => arbitrate_of_free hfree hd⟩
  · rw [step_scheduled hs hp]
    exact congrArg Host.Outcome.next (arbitrate_eq_pending host _)
  · rw [arbitrate_of_occupied (by exact hocc)]

/-- Settles O6: the check of rule R209 for the table comes before the word and the operands. -/
theorem commandsHoldUntilTheTableIsReady : Obligations.CommandsHoldUntilTheTableIsReady := by
  intro s l hp hs hf ht
  rw [step_scheduled hs hp]
  exact engineStep_of_table_not_ready (s := { s with schedule := l }) hf ht

/-! ### The entropy source (rules R30, R238) -/

/-- Settles O30: the answer is `freeAnswer`, whose form is rule R30's. -/
theorem sourceAnswersTheStalledDraw : Obligations.SourceAnswersTheStalledDraw := by
  intro s req l hp hs he
  refine ⟨freeAnswer req s.drawCount, ?_, ?_⟩
  · rw [step_scheduled hs hp]
    exact congrArg Host.Outcome.next (sourceStep_stalled (s := { s with schedule := l }) he)
  · rcases freeAnswer_admits req s.drawCount with hex | ⟨v, hv, hform⟩
    · exact .inl hex
    · refine .inr ⟨v, hv, ?_⟩
      cases req with
      | any n => exact answersReq_any.mp hform
      | nonzero n => exact answersReq_nonzero.mp hform

/-- Settles O60: the supplied answer is appended, and only a stall becomes a try again. -/
theorem suppliedAnswersQueueUp : Obligations.SuppliedAnswersQueueUp := by
  intro s a l hp hs
  rw [step_scheduled hs hp]
  refine ⟨fun req he => ?_, fun hne => ?_⟩
  · simp only [takeTurn, supply, he, resume_stalled]
  · simp only [takeTurn, supply, resume_not_stalled hne]

end Sys2Proof.Machine
end

section
/-! PROOFS. The statements of spec/10_state.md about a command's inputs: the draws (rules R30, R31) and what a
response depends on (rule R29). -/

namespace Sys2Proof.Machine

/-! ### Draws without an answer (rules R31, R44) -/

/-- An operation that holds leaves everything but the record of its occupation. -/
theorem exec_of_hold {i : Instr} {s : State} {c : Command} {rest : List Command} {req : DrawReq}
    (hx : Executable s c rest) (h : operation i c s = .hold req) :
    exec i s = .next { s with engine := .stalled req } := by
  rw [exec_eq_execute, execute_of_executable hx, h]
  rfl

theorem skgenOp_of_length {c : Command} (h : c.a.length = 16) (s : State) :
    skgenOp c s = withDraw (.any 32) s.entropy (skgenPad s.cfg c.a) := by
  simp [skgenOp, h]

theorem pencOp_of_length {c : Command} (h : c.b.length = 32) (s : State) :
    pencOp c s = withDraw (.any 3) s.entropy fun r q => .done 0 (pencFrame c.b r c.a) q := by
  simp [pencOp, h]

/-- The request of the draw that `CFG.KE_PAD` names (rule R103). -/
theorem skgenPad_nil (cfg : Cfg) (nonce plain : Bytes) :
    skgenPad cfg nonce plain [] =
      .hold (match cfg.kePad with | .oaepSha1 => .any 20 | .pkcs1V15 => .nonzero 77) := by
  unfold skgenPad
  cases cfg.kePad <;> rfl

/-- Rule R131's pseudocode from the draw on: the key is not zero and the secret fits it. -/
theorem credencOp_of_accepted {c : Command} {nb eb : Bytes} {k : Nat} (s : State)
    (hn : hexDecode c.b = some nb) (he : hexDecode c.c = some eb) (hn0 : os2ip nb ≠ 0)
    (he0 : os2ip eb ≠ 0) (hk : octlen (os2ip nb) = k) (hlen : c.a.length + 11 ≤ k) :
    credencOp c s = withDraw (.nonzero (k - c.a.length - 3)) s.entropy fun ps q =>
      credencFinish (os2ip nb) (os2ip eb) k c.a ps q := by
  have hfits : ¬ c.a.length + 11 > k := by omega
  simp only [credencOp, hn, he, credencWithKey, hn0, he0, hk, hfits, or_self, if_false]

/-- The octet length from the two bounds on a number that is not zero. -/
theorem octlen_of_bounds {n k : Nat} (hk : 1 ≤ k) (hlow : 256 ^ (k - 1) ≤ n) (hhigh : n < 256 ^ k) :
    octlen n = k := by
  have hle : octlen n ≤ k := (lt_pow_iff_octlen_le n k).mp hhigh
  have hgt : ¬ octlen n ≤ k - 1 := fun h =>
    absurd ((lt_pow_iff_octlen_le n (k - 1)).mpr h) (Nat.not_lt.mpr hlow)
  omega

/-- Settles O15: each command reaches its draw, and a draw on an empty queue is a hold. -/
theorem stalledDrawsHold : Obligations.StalledDrawsHold := by
  intro s c rest hx
  refine ⟨fun ha hq => exec_of_hold hx ?_, fun plain ha hplain hq => exec_of_hold hx ?_,
    fun hb hq => exec_of_hold hx ?_,
    fun nb eb k hn he hepos hlow hhigh hlen hq => exec_of_hold hx ?_⟩
  · rw [operation, skgenOp_of_length ha, hq, withDraw_nil]
  · have hop : operation .skgen c s = skgenPad s.cfg c.a plain [] := by
      rw [operation, skgenOp_of_length ha, hq, withDraw_answer (answersReq_any.mpr hplain)]
    exact hop.trans (skgenPad_nil s.cfg c.a plain)
  · rw [operation, pencOp_of_length hb, hq, withDraw_nil]
  · have hpos : 0 < os2ip nb := (Nat.pow_pos (by omega)).trans_le hlow
    have hk : octlen (os2ip nb) = k := octlen_of_bounds (by omega) hlow hhigh
    rw [operation, credencOp_of_accepted s hn he (by omega) (by omega) hk hlen, hq, withDraw_nil]

/-! ### What a response depends on (rules R29, R46, R48) -/

/-- The checksum's loop sees the table only through its reads. -/
theorem crcLoop_congr {t u : CrcTable} (h : ∀ j, CrcTable.read t j = CrcTable.read u j) (crc : Word)
    (x : Bytes) : crcLoop t crc x = crcLoop u crc x := by
  induction x generalizing crc with
  | nil => rfl
  | cons b x ih =>
    rw [crcLoop, crcLoop, h]
    cases CrcTable.read u (crcIndex crc b) with
    | none => rfl
    | some v => exact ih _

/-- The reply of an operation is a function of the operands, the source's answers, the table's reads and
CFG. -/
theorem operation_congr (i : Instr) {c c' : Command} {s s' : State} (ha : c.a = c'.a) (hb : c.b = c'.b)
    (hc : c.c = c'.c) (hq : s.entropy = s'.entropy)
    (ht : ∀ j, CrcTable.read s.table j = CrcTable.read s'.table j) (hcfg : s.cfg = s'.cfg) :
    operation i c s = operation i c' s' := by
  cases i with
  | crc32 => simp only [operation, crc32Op, ha, hq, crcLoop_congr ht]
  | tblrd idx => simp only [operation, tblrdOp, hq, ht]
  | skgen => simp only [operation, skgenOp, ha, hq, hcfg]
  | penc => simp only [operation, pencOp, ha, hb, hq]
  | pdec => simp only [operation, pdecOp, ha, hb, hq]
  | credenc => simp only [operation, credencOp, credencWithKey, ha, hb, hc, hq]

/-- Where the first result answers `c` in `s`, the second answers `c'` in `s'` with the same response, the same
answers of the source left and the same FATAL. -/
def EndsAlike (s s' : State) (c c' : Command) (out out' : Result) : Prop :=
  ∀ t r, out = .next t → t.delivered = s.delivered ++ [{ host := c.host, response := r }] →
    ∃ t', out' = .next t' ∧ t'.delivered = s'.delivered ++ [{ host := c'.host, response := r }] ∧
      t'.entropy = t.entropy ∧ t'.fatal = t.fatal

theorem endsAlike_next {s s' t t' : State} {c c' : Command} {r : Response}
    (hd : t.delivered = s.delivered ++ [{ host := c.host, response := r }])
    (hd' : t'.delivered = s'.delivered ++ [{ host := c'.host, response := r }])
    (hq : t'.entropy = t.entropy) (hf : t'.fatal = t.fatal) :
    EndsAlike s s' c c' (.next t) (.next t') := by
  rintro _ r' ⟨⟩ hr'
  obtain rfl : r = r' := by simpa using hd.symm.trans hr'
  exact ⟨t', rfl, hd', hq, hf⟩

/-- A hold is no answer. -/
theorem endsAlike_of_hold {s s' t : State} {c c' : Command} (h : t.delivered = s.delivered)
    (out' : Result) : EndsAlike s s' c c' (.next t) out' := by
  rintro _ r ⟨⟩ hr
  simp [h] at hr

theorem endsAlike_of_fault (s s' : State) (c c' : Command) (f : Fault) (out' : Result) :
    EndsAlike s s' c c' (.fault f) out' :=
  fun _ _ h => by cases h

/-- What a raised error delivers. -/
theorem raise_delivered (st : Status) (c : Command) (rest : List Command) (s : State) :
    (raise st c rest s).delivered = s.delivered ++
      [{ host := c.host,
         response := { status := st, result := errorResult st (latchFatal st s), out := [] } }] := by
  simp [raise, answer]

theorem raise_fatal (st : Status) (c : Command) (rest : List Command) (s : State) :
    (raise st c rest s).fatal = (latchFatal st s).fatal := rfl

/-- The latch depends on FATAL and its cause alone. -/
theorem latchFatal_congr (st : Status) {s s' : State} (hf : s.fatal = s'.fatal)
    (hcause : s.fatalCause = s'.fatalCause) :
    (latchFatal st s).fatal = (latchFatal st s').fatal ∧
      (latchFatal st s).fatalCause = (latchFatal st s').fatalCause := by
  unfold latchFatal
  rw [hf]
  split
  · exact ⟨rfl, rfl⟩
  · exact ⟨hf, hcause⟩

theorem errorResult_congr (st : Status) {s s' : State} (hcause : s.fatalCause = s'.fatalCause) :
    errorResult st s = errorResult st s' := by
  unfold errorResult
  rw [hcause]

theorem raise_endsAlike (st : Status) {s s' : State} (c c' : Command) (rest rest' : List Command)
    (hq : s.entropy = s'.entropy) (hf : s.fatal = s'.fatal) (hcause : s.fatalCause = s'.fatalCause) :
    EndsAlike s s' c c' (.next (raise st c rest s)) (.next (raise st c' rest' s')) := by
  obtain ⟨hlatch, hlatchCause⟩ := latchFatal_congr st hf hcause
  refine endsAlike_next (raise_delivered st c rest s) ?_ ?_ ?_
  · rw [raise_delivered, errorResult_congr st hlatchCause]
  · rw [raise_entropy, raise_entropy, hq]
  · rw [raise_fatal, raise_fatal, hlatch]

/-- The same reply ends a command alike in both states. -/
theorem commit_endsAlike (r : Reply) {s s' : State} (c c' : Command) (rest rest' : List Command)
    (hf : s.fatal = s'.fatal) (hcause : s.fatalCause = s'.fatalCause) :
    EndsAlike s s' c c' (commit c rest s r) (commit c' rest' s' r) := by
  cases r with
  | done result out q => exact endsAlike_next rfl rfl rfl hf.symm
  | raise st q =>
    exact raise_endsAlike st (s := { s with entropy := q }) (s' := { s' with entropy := q })
      c c' rest rest' rfl hf hcause
  | hold req => exact endsAlike_of_hold rfl _
  | stop f => exact endsAlike_of_fault s s' c c' f _

/-- Settles O27: each check of rule R209 comes out alike in both states, and so does the operation. -/
theorem responseDependsOnlyOnItsInputs : Obligations.ResponseDependsOnlyOnItsInputs := by
  intro i s s' t c c' rest rest' r hp hp' ha hb hc hq htab hcfg hf hcause hvalid hexec hdel
  have hlimit : operandTooLong s.cfg c = operandTooLong s'.cfg c' := by
    simp only [operandTooLong, hcfg, ha, hb, hc]
  have hop : operation i c s = operation i c' s' := operation_congr i ha hb hc hq htab hcfg
  suffices halike : EndsAlike s s' c c' (exec i s) (exec i s') from halike t r hexec hdel
  rw [exec_eq_execute, exec_eq_execute, execute_cons _ hp, execute_cons _ hp', ← hf, ← hvalid,
    ← hlimit, ← hop]
  split
  · exact raise_endsAlike .errHalted c c' rest rest' hq hf hcause
  split
  · split
    · exact raise_endsAlike .errLength c c' rest rest' hq hf hcause
    · exact commit_endsAlike _ c c' rest rest' hf hcause
  · exact endsAlike_of_hold rfl _

end Sys2Proof.Machine
end

section
/-! PROOFS. No operation stops in a block of the invariant (rules R41, R101, R134): the table's entries that
it reads hold values, and its RSA inputs are in range. -/

namespace Sys2Proof.Machine

/-! ### The table's entries (rules R41, R65) -/

/-- The index that a word encodes is a byte. -/
theorem tblrd_index_lt {w : Word} {idx : Nat} (h : decode w = .ok (.tblrd idx)) : idx < 256 := by
  have hmap : opcodeMap (opcField w) (idxField w) = some (.tblrd idx) := by
    unfold decode at h
    split at h
    · cases h
    · split at h
      · cases h
      · next i hi =>
        split at h
        · cases h
        · rwa [Except.ok.inj h] at hi
  unfold opcodeMap at hmap
  split_ifs at hmap
  all_goals cases hmap
  exact (idxField w).isLt

/-- A ready table of the invariant is the complete one. -/
theorem table_of_ready {s : State} (h : TableInv s) (hready : s.tblValid = true) :
    s.table = builtTable 256 := by
  obtain ⟨-, htable, hvalid⟩ := h
  rw [htable, hvalid.mp hready]

/-! ### RSAEP's domain (rules R101, R134, R170) -/

theorem os2ip_lt (x : Bytes) : os2ip x < 256 ^ x.length := by
  induction x with
  | nil => simp
  | cons b x ih =>
    have hb : b.toNat + 1 ≤ 256 := b.isLt
    calc os2ip (b :: x)
      _ = b.toNat * 256 ^ x.length + os2ip x := os2ip_cons b x
      _ < b.toNat * 256 ^ x.length + 256 ^ x.length := by omega
      _ = (b.toNat + 1) * 256 ^ x.length := by ring
      _ ≤ 256 * 256 ^ x.length := Nat.mul_le_mul_right _ hb
      _ = 256 ^ (b :: x).length := by rw [List.length_cons, pow_succ']

/-- A message that begins with a zero byte and is no longer than the modulus is below it. -/
theorem rsaEncrypt_zero_cons {n e k : Nat} {x : Bytes} (he : e ≠ 0) (hlen : x.length < octlen n) :
    ∃ ct, rsaEncrypt n e k (0 :: x) = some ct := by
  have hlead : os2ip (0 :: x) = os2ip x := by simp [os2ip_cons]
  have hlow : 256 ^ x.length ≤ n := by
    rw [← Nat.not_lt, lt_pow_iff_octlen_le]
    omega
  have hlt : os2ip (0 :: x) < n := hlead ▸ (os2ip_lt x).trans_le hlow
  exact ⟨_, if_pos ⟨Nat.one_le_iff_ne_zero.mpr he, hlt⟩⟩

theorem emePkcs1V15_eq_cons (m ps : Bytes) :
    emePkcs1V15 m ps = 0 :: ([0x02] ++ ps ++ [0x00] ++ m) := rfl

/-- An OAEP encoding is a zero byte, a mask of 20 bytes and one of `k - 21`. -/
theorem emeOaepSha1_eq_cons (k : Nat) (m seed : Bytes) :
    ∃ x, emeOaepSha1 k m seed = 0 :: x ∧ x.length ≤ 20 + (k - 21) := by
  simp only [emeOaepSha1, List.cons_append, List.nil_append]
  refine ⟨_, rfl, ?_⟩
  rw [List.length_append]
  have hmask : ∀ y z : Bytes, ∀ l, (xorBytes y (mgf1Sha1 z l)).length ≤ l := fun y z l => by
    rw [xorBytes, List.length_zipWith]
    exact (Nat.min_le_right _ _).trans (List.length_take_le l _)
  exact Nat.add_le_add (hmask _ _ _) (hmask _ _ _)

/-! ### The operations -/

theorem withDraw_ne_stop {req : DrawReq} {q : List Answer} {k : Bytes → List Answer → Reply} {f : Fault}
    (h : ∀ v rest, answersReq req v = true → k v rest ≠ .stop f) : withDraw req q k ≠ .stop f := by
  rcases withDraw_cases req q k with ⟨-, v, rest, -, hv, hw⟩ | ⟨-, rest, -, hw⟩ | ⟨-, hw⟩
  all_goals rw [hw]
  · exact h v rest hv
  · nofun
  · nofun

theorem crc32Op_ne_stop {s : State} (h : s.table = builtTable 256) (c : Command) (f : Fault) :
    crc32Op c s ≠ .stop f := by
  rw [crc32Op, h, crcLoop_builtTable]
  nofun

theorem tblrdOp_ne_stop {s : State} {idx : Nat} (h : s.table = builtTable 256) (hidx : idx < 256)
    (c : Command) (f : Fault) : tblrdOp idx c s ≠ .stop f := by
  rw [tblrdOp, h, builtTable_read, if_pos hidx]
  nofun

theorem skgenFinish_ne_stop {cfg : Cfg} {x : Bytes} (hkey : keyMalformed cfg = false)
    (hx : x.length < 128) (plain : Bytes) (q : List Answer) (f : Fault) :
    skgenFinish cfg plain (0 :: x) q ≠ .stop f := by
  obtain ⟨hoct, hexp⟩ : octlen cfg.serverN.toNat = 128 ∧ cfg.serverE ≠ 0 := by
    rwa [keyMalformed, decide_eq_false_iff_not, not_or, not_not] at hkey
  have he : cfg.serverE.toNat ≠ 0 := toNat_ne_zero_iff.mpr hexp
  obtain ⟨ct, hct⟩ := rsaEncrypt_zero_cons (k := 128) he (hoct ▸ hx)
  rw [skgenFinish, hct]
  nofun

/-- The reset check and the lengths of rules R101 and R103 keep RSAEP's input below SERVER_N. -/
theorem skgenOp_ne_stop {s : State} (hkey : keyMalformed s.cfg = false) (c : Command) (f : Fault) :
    skgenOp c s ≠ .stop f := by
  unfold skgenOp
  split
  · nofun
  next hlen =>
  refine withDraw_ne_stop fun plain q hplain => ?_
  have hnonce : c.a.length = 16 := not_not.mp hlen
  have hplainLen : plain.length = 32 := answersReq_any.mp hplain
  unfold skgenPad
  split
  · refine withDraw_ne_stop fun seed q' _ => ?_
    obtain ⟨x, hem, hx⟩ := emeOaepSha1_eq_cons 128 (plain ++ c.a) seed
    rw [hem]
    exact skgenFinish_ne_stop hkey (by omega) plain q' f
  · refine withDraw_ne_stop fun ps q' hps => ?_
    obtain ⟨hpsLen, -⟩ := answersReq_nonzero.mp hps
    rw [emePkcs1V15_eq_cons]
    exact skgenFinish_ne_stop hkey (by simp [hnonce, hplainLen, hpsLen]) plain q' f

theorem pencOp_ne_stop (c : Command) (s : State) (f : Fault) : pencOp c s ≠ .stop f := by
  unfold pencOp
  split
  · nofun
  · exact withDraw_ne_stop fun _ _ _ => by nofun

theorem pdecOp_ne_stop (c : Command) (s : State) (f : Fault) : pdecOp c s ≠ .stop f := by
  unfold pdecOp
  repeat' split
  all_goals nofun

/-- The key checks of rule R134 and the length of `PS` keep RSAEP's input below the modulus. -/
theorem credencWithKey_ne_stop (n e : Nat) (c : Command) (s : State) (f : Fault) :
    credencWithKey n e c s ≠ .stop f := by
  unfold credencWithKey
  split
  · nofun
  next hkey =>
  dsimp only
  split
  · nofun
  next hfits =>
  refine withDraw_ne_stop fun ps q hps => ?_
  obtain ⟨hpsLen, -⟩ := answersReq_nonzero.mp hps
  have hlen : ([0x02] ++ ps ++ [0x00] ++ c.a).length < octlen n := by
    simp only [List.length_append, List.length_singleton, hpsLen]
    omega
  obtain ⟨ct, hct⟩ := rsaEncrypt_zero_cons (k := octlen n) (not_or.mp hkey).2 hlen
  rw [credencFinish, emePkcs1V15_eq_cons, hct]
  nofun

theorem credencOp_ne_stop (c : Command) (s : State) (f : Fault) : credencOp c s ≠ .stop f := by
  unfold credencOp
  split
  · nofun
  · split
    · nofun
    · exact credencWithKey_ne_stop _ _ c s f

/-- An operation that is executed in a block of the invariant reads no value that is not defined. -/
theorem operation_ne_stop {s : State} {c : Command} {rest : List Command} {i : Instr} (hinv : Inv s)
    (hx : Executable s c rest) (hd : decode c.word = .ok i) (f : Fault) :
    operation i c s ≠ .stop f := by
  obtain ⟨-, htab, hfat, -⟩ := hinv
  obtain ⟨-, hf, hready, -⟩ := hx
  have hfull : s.table = builtTable 256 := table_of_ready htab hready
  cases i with
  | crc32 => exact crc32Op_ne_stop hfull c f
  | tblrd idx => exact tblrdOp_ne_stop hfull (tblrd_index_lt hd) c f
  | skgen => exact skgenOp_ne_stop (keyMalformed_of_not_fatal hfat hf) c f
  | penc => exact pencOp_ne_stop c s f
  | pdec => exact pdecOp_ne_stop c s f
  | credenc => exact credencOp_ne_stop c s f

end Sys2Proof.Machine
end

section
/-! PROOFS. Progress of the first outstanding command under the model's choice of turns (rules R31, R233,
R237): the generator completes the table, the source answers the stalled draws, of which a command has at
most two, and the engine answers the command. -/

namespace Sys2Proof.Machine

/-! ### The number of draws of a command -/

/-- On the answers `q`, an operation with the reply `f` holds at most `n` times, where each hold is lifted by
an answer that its request admits. -/
def EndsWithin (f : List Answer → Reply) : Nat → List Answer → Prop
  | 0, q => ∀ req, f q ≠ .hold req
  | n + 1, q => ∀ req, f q = .hold req → ∀ a, Admits req a → EndsWithin f n (q ++ [a])

/-- An operation that does not hold has no hold to lift. -/
theorem endsWithin_of_not_hold {f : List Answer → Reply} {q : List Answer} (h : ∀ req, f q ≠ .hold req)
    (n : Nat) : EndsWithin f n q := by
  cases n with
  | zero => exact h
  | succ n => exact fun req hreq => absurd hreq (h req)

theorem EndsWithin.mono {f : List Answer → Reply} {n m : Nat} {q : List Answer} (hnm : n ≤ m)
    (h : EndsWithin f n q) : EndsWithin f m q := by
  induction n generalizing m q with
  | zero => exact endsWithin_of_not_hold h m
  | succ n ih =>
    obtain ⟨m, rfl⟩ : ∃ k, m = k + 1 := ⟨m - 1, by omega⟩
    exact fun req hreq a ha => ih (by omega) (h req hreq a ha)

/-- A later answer does not change a draw that has its bytes. -/
theorem takeDraw_append {req : DrawReq} {q rest : List Answer} {v : Bytes}
    (h : takeDraw req q = .bytes v rest) (a : List Answer) :
    takeDraw req (q ++ a) = .bytes v (rest ++ a) := by
  rcases takeDraw_cases req q with ⟨sk, w, r, rfl, hsk, hw, hd⟩ | ⟨sk, r, -, -, hd⟩ | ⟨-, hd⟩
  · rw [hd] at h
    cases h
    rw [List.append_assoc, List.cons_append, takeDraw_skip hsk, takeDraw_answer hw]
  · rw [hd] at h
    cases h
  · rw [hd] at h
    cases h

/-- The answer to a stalled draw is its outcome, behind entries that are none. -/
theorem takeDraw_lifted {req : DrawReq} {q : List Answer} {a : Answer}
    (h : takeDraw req q = .stalled) (ha : Admits req a) :
    takeDraw req (q ++ [a]) = .exhausted [] ∨ ∃ v, takeDraw req (q ++ [a]) = .bytes v [] := by
  rcases takeDraw_cases req q with ⟨sk, w, r, -, -, -, hd⟩ | ⟨sk, r, -, -, hd⟩ | ⟨hsk, -⟩
  · rw [hd] at h
    cases h
  · rw [hd] at h
    cases h
  · rw [takeDraw_skip hsk]
    rcases ha with rfl | ⟨v, rfl, hv⟩
    · exact .inl rfl
    · exact .inr ⟨v, takeDraw_answer hv []⟩

/-- A draw that has its bytes leaves the holds of what follows it. -/
theorem endsWithin_withDraw_of_bytes {req : DrawReq} {k : Bytes → List Answer → Reply} {v : Bytes}
    {n : Nat} {q rest : List Answer} (h : EndsWithin (k v) n rest)
    (hd : takeDraw req q = .bytes v rest) : EndsWithin (fun q => withDraw req q k) n q := by
  have hk : withDraw req q k = k v rest := by rw [withDraw, hd]
  induction n generalizing q rest with
  | zero => exact fun r hr => h r (hk ▸ hr)
  | succ n ih =>
    intro r hr a ha
    have hd' := takeDraw_append hd [a]
    exact ih (h r (hk ▸ hr) a ha) hd' (by rw [withDraw, hd'])

theorem endsWithin_withDraw_of_exhausted {req : DrawReq} {k : Bytes → List Answer → Reply}
    {q rest : List Answer} (hd : takeDraw req q = .exhausted rest) (n : Nat) :
    EndsWithin (fun q => withDraw req q k) n q :=
  endsWithin_of_not_hold (fun r => by simp [withDraw, hd]) n

/-- A draw adds one hold to those of what follows it. -/
theorem endsWithin_withDraw {req : DrawReq} {k : Bytes → List Answer → Reply} {n : Nat}
    (h : ∀ v q, EndsWithin (k v) n q) (q : List Answer) :
    EndsWithin (fun q => withDraw req q k) (n + 1) q := by
  cases hd : takeDraw req q with
  | bytes v rest => exact (endsWithin_withDraw_of_bytes (h v rest) hd).mono (Nat.le_succ n)
  | exhausted rest => exact endsWithin_withDraw_of_exhausted hd (n + 1)
  | stalled =>
    intro r hr a ha
    obtain rfl : req = r := by simpa [withDraw, hd] using hr
    rcases takeDraw_lifted hd ha with hex | ⟨v, hv⟩
    · exact endsWithin_withDraw_of_exhausted hex n
    · exact endsWithin_withDraw_of_bytes (h v []) hv

/-- The reply of a command's operation as a function of the answers ready, the rest of the state fixed. -/
def replyOn (i : Instr) (c : Command) (s : State) (q : List Answer) : Reply :=
  operation i c { s with entropy := q }

theorem replyOn_congr (i : Instr) (c : Command) {s s' : State} (ht : s.table = s'.table)
    (hcfg : s.cfg = s'.cfg) : replyOn i c s = replyOn i c s' := by
  funext q
  exact operation_congr i rfl rfl rfl rfl (fun j => by simp only [ht]) hcfg

theorem skgenFinish_ne_hold {cfg : Cfg} {plain em : Bytes} {q : List Answer} (req : DrawReq) :
    skgenFinish cfg plain em q ≠ .hold req := by
  unfold skgenFinish
  split <;> nofun

theorem credencFinish_ne_hold {n e k : Nat} {secret ps : Bytes} {q : List Answer} (req : DrawReq) :
    credencFinish n e k secret ps q ≠ .hold req := by
  unfold credencFinish
  split <;> nofun

theorem skgenPad_endsWithin (cfg : Cfg) (nonce plain : Bytes) (q : List Answer) :
    EndsWithin (skgenPad cfg nonce plain) 1 q := by
  unfold skgenPad
  cases cfg.kePad with
  | oaepSha1 =>
    exact endsWithin_withDraw (fun _ _ => endsWithin_of_not_hold skgenFinish_ne_hold 0) q
  | pkcs1V15 =>
    exact endsWithin_withDraw (fun _ _ => endsWithin_of_not_hold skgenFinish_ne_hold 0) q

theorem skgenOp_endsWithin (c : Command) (s : State) (q : List Answer) :
    EndsWithin (replyOn .skgen c s) 2 q := by
  by_cases hlen : c.a.length = 16
  · have hreply : replyOn .skgen c s = fun q => withDraw (.any 32) q (skgenPad s.cfg c.a) :=
      funext fun q => skgenOp_of_length hlen { s with entropy := q }
    rw [hreply]
    exact endsWithin_withDraw (fun v => skgenPad_endsWithin s.cfg c.a v) q
  · exact endsWithin_of_not_hold (fun r => by simp [replyOn, operation, skgenOp, hlen]) 2

theorem pencOp_endsWithin (c : Command) (s : State) (q : List Answer) :
    EndsWithin (replyOn .penc c s) 1 q := by
  by_cases hlen : c.b.length = 32
  · have hreply : replyOn .penc c s =
        fun q => withDraw (.any 3) q fun r q' => .done 0 (pencFrame c.b r c.a) q' :=
      funext fun q => pencOp_of_length hlen { s with entropy := q }
    rw [hreply]
    exact endsWithin_withDraw (fun _ _ => endsWithin_of_not_hold (fun _ => by nofun) 0) q
  · exact endsWithin_of_not_hold (fun r => by simp [replyOn, operation, pencOp, hlen]) 1

/-- Rule R131's pseudocode raises an error by the operands alone, or comes to its draw. -/
theorem credencOp_cases (c : Command) :
    (∃ st, ∀ s, credencOp c s = .raise st s.entropy) ∨
    ∃ n e k, ∀ s, credencOp c s = withDraw (.nonzero (k - c.a.length - 3)) s.entropy fun ps q =>
      credencFinish n e k c.a ps q := by
  cases hn : hexDecode c.b with
  | none => exact .inl ⟨.errHex, fun s => by simp only [credencOp, hn]⟩
  | some nb =>
    cases he : hexDecode c.c with
    | none => exact .inl ⟨.errHex, fun s => by simp only [credencOp, hn, he]⟩
    | some eb =>
      by_cases hkey : os2ip nb = 0 ∨ os2ip eb = 0
      · exact .inl ⟨.errKey, fun s => by simp only [credencOp, hn, he, credencWithKey, if_pos hkey]⟩
      · by_cases hlen : c.a.length + 11 ≤ octlen (os2ip nb)
        · obtain ⟨hn0, he0⟩ := not_or.mp hkey
          exact .inr ⟨_, _, _, fun s => credencOp_of_accepted s hn he hn0 he0 rfl hlen⟩
        · refine .inl ⟨.errTooLarge, fun s => ?_⟩
          simp only [credencOp, hn, he, credencWithKey, if_neg hkey, if_pos (Nat.lt_of_not_le hlen)]

theorem credencOp_endsWithin (c : Command) (s : State) (q : List Answer) :
    EndsWithin (replyOn .credenc c s) 1 q := by
  rcases credencOp_cases c with ⟨st, hraise⟩ | ⟨n, e, k, hdraw⟩
  · exact endsWithin_of_not_hold (fun r => by simp [replyOn, operation, hraise]) 1
  · have hreply : replyOn .credenc c s = fun q => withDraw (.nonzero (k - c.a.length - 3)) q
        fun ps q' => credencFinish n e k c.a ps q' :=
      funext fun q => hdraw { s with entropy := q }
    rw [hreply]
    exact endsWithin_withDraw (fun _ _ => endsWithin_of_not_hold (credencFinish_ne_hold) 0) q

/-- No command has more than two draws; `skgen` has two. -/
theorem replyOn_endsWithin (i : Instr) (c : Command) (s : State) (q : List Answer) :
    EndsWithin (replyOn i c s) 2 q := by
  cases i with
  | crc32 =>
    refine endsWithin_of_not_hold (fun r => ?_) 2
    simp only [replyOn, operation, crc32Op]
    split <;> nofun
  | tblrd idx =>
    refine endsWithin_of_not_hold (fun r => ?_) 2
    simp only [replyOn, operation, tblrdOp]
    split <;> nofun
  | skgen => exact skgenOp_endsWithin c s q
  | penc => exact (pencOp_endsWithin c s q).mono (by omega)
  | pdec =>
    refine endsWithin_of_not_hold (fun r => ?_) 2
    simp only [replyOn, operation, pdecOp]
    repeat' split
    all_goals nofun
  | credenc => exact (credencOp_endsWithin c s q).mono (by omega)

/-! ### The turn that the model chooses (rules R233, R237) -/

theorem chooseTurn_generator {s : State} {c : Command} {rest : List Command} (hp : s.pending = c :: rest)
    (hf : s.fatal = false) (ht : s.tblValid = false) (hidx : s.genIdx < 256) :
    chooseTurn s = .generator := by
  simp [chooseTurn, hp, hf, ht, hidx]

theorem chooseTurn_source {s : State} {c : Command} {rest : List Command} {req : DrawReq}
    (hp : s.pending = c :: rest) (hf : s.fatal = false) (ht : s.tblValid = true)
    (he : s.engine = .stalled req) (hlive : s.rngLive = true) : chooseTurn s = .source := by
  simp [chooseTurn, hp, hf, ht, he, hlive]

theorem chooseTurn_engine_of_fatal {s : State} {c : Command} {rest : List Command}
    (hp : s.pending = c :: rest) (hf : s.fatal = true) : chooseTurn s = .engine := by
  simp [chooseTurn, hp, hf]

theorem chooseTurn_engine_of_not_stalled {s : State} {c : Command} {rest : List Command}
    (hp : s.pending = c :: rest) (hf : s.fatal = false) (ht : s.tblValid = true)
    (he : ∀ req, s.engine ≠ .stalled req) : chooseTurn s = .engine := by
  cases heng : s.engine with
  | stalled req => exact absurd heng (he req)
  | free => simp [chooseTurn, hp, hf, ht, heng]
  | resumed => simp [chooseTurn, hp, hf, ht, heng]

/-! ### The engine's turn on a ready or a fatal block -/

/-- The command `c` of the state `s` has been answered in `t`, and `rest` is still outstanding. -/
def AnsweredIn (s : State) (c : Command) (rest : List Command) (t : State) : Prop :=
  t.pending = rest ∧ ∃ r, t.delivered = s.delivered ++ [{ host := c.host, response := r }]

theorem answeredIn_raise (st : Status) (s : State) (c : Command) (rest : List Command) :
    AnsweredIn s c rest (raise st c rest s) :=
  ⟨raise_pending st c rest s, _, raise_delivered st c rest s⟩

/-- The engine's turn in a fatal block answers the first command, legal or not (rule R206). -/
theorem engineStep_of_fatal {s : State} {c : Command} {rest : List Command}
    (hp : s.pending = c :: rest) (hf : s.fatal = true) :
    engineStep s = .next (raise .errHalted c rest s) := by
  cases hd : decode c.word with
  | ok i =>
    rw [engineStep_of_legal hp hd, exec_eq_execute, execute_cons _ hp, if_pos hf]
  | error e =>
    rw [engineStep_of_illegal hp hd, answerIllegal_cons hp, if_pos hf]

/-- What a reply does to the first command, unless it is a stop. -/
theorem commit_answers_or_holds {r : Reply} (hr : ∀ f, r ≠ .stop f) (s : State) (c : Command)
    (rest : List Command) :
    (∃ t, commit c rest s r = .next t ∧ AnsweredIn s c rest t) ∨
    ∃ req, r = .hold req ∧ commit c rest s r = .next { s with engine := .stalled req } := by
  cases r with
  | done result out q => exact .inl ⟨completed s c rest result out q, rfl, rfl, _, rfl⟩
  | raise st q => exact .inl ⟨_, rfl, answeredIn_raise st { s with entropy := q } c rest⟩
  | hold req => exact .inr ⟨req, rfl, rfl⟩
  | stop f => exact absurd rfl (hr f)

/-- The engine's turn in a ready block of the invariant answers the first command, or it holds by a draw of
its operation. -/
theorem engineStep_answers_or_holds {s : State} {c : Command} {rest : List Command} (hinv : Inv s)
    (hp : s.pending = c :: rest) (hf : s.fatal = false) (ht : s.tblValid = true) :
    (∃ t, engineStep s = .next t ∧ AnsweredIn s c rest t) ∨
    ∃ i req, decode c.word = .ok i ∧ operation i c s = .hold req ∧
      engineStep s = .next { s with engine := .stalled req } := by
  have hnot : ¬ s.fatal = true := by simp [hf]
  cases hd : decode c.word with
  | error e =>
    rw [engineStep_of_illegal hp hd, answerIllegal_cons hp, if_neg hnot, if_pos ht]
    exact .inl ⟨_, rfl, answeredIn_raise .errIllegal s c rest⟩
  | ok i =>
    rw [engineStep_of_legal hp hd, exec_eq_execute, execute_cons _ hp, if_neg hnot, if_pos ht]
    cases hlong : operandTooLong s.cfg c with
    | true => exact .inl ⟨_, rfl, answeredIn_raise .errLength s c rest⟩
    | false =>
      rw [if_neg Bool.false_ne_true]
      have hstop := operation_ne_stop hinv ⟨hp, hf, ht, hlong⟩ hd
      rcases commit_answers_or_holds hstop s c rest with hans | ⟨req, hhold, hc⟩
      · exact .inl hans
      · exact .inr ⟨i, req, rfl, hhold, hc⟩

/-! ### Progress -/

/-- A block of the invariant with nothing scheduled and a live source, whose first outstanding command is
`c`. -/
structure LiveWith (s : State) (c : Command) (rest : List Command) : Prop where
  inv : Inv s
  unscheduled : s.schedule = []
  live : s.rngLive = true
  pending : s.pending = c :: rest

/-- Some number of steps answers `c`, the conclusion of rule R31's progress. -/
def EventuallyAnswered (s : State) (c : Command) (rest : List Command) : Prop :=
  ∃ k t r, Leads k s t ∧ t.pending = rest ∧
    t.delivered = s.delivered ++ [{ host := c.host, response := r }]

section Progress

variable {s u : State} {c : Command} {rest : List Command}

theorem LiveWith.step_eq (h : LiveWith s c rest) : step s = takeTurn (chooseTurn s) s := by
  obtain ⟨hpow, -⟩ := h.inv
  exact step_chosen h.unscheduled hpow

/-- A step that keeps the outstanding commands keeps the block live. -/
theorem LiveWith.next (h : LiveWith s c rest) (hstep : step s = .next u) (hs : u.schedule = s.schedule)
    (hp : u.pending = s.pending) : LiveWith u c rest where
  inv := everyStepKeepsTheInvariant s u h.inv hstep
  unscheduled := hs.trans h.unscheduled
  live := (configurationIsFixed s u hstep).2.trans h.live
  pending := hp.trans h.pending

theorem eventuallyAnswered_of_step (hstep : step s = .next u) (h : AnsweredIn s c rest u) :
    EventuallyAnswered s c rest := by
  obtain ⟨hp, r, hr⟩ := h
  exact ⟨1, u, r, ⟨u, hstep, rfl⟩, hp, hr⟩

/-- A step that delivers nothing leaves the answer to the steps after it. -/
theorem EventuallyAnswered.of_next (hstep : step s = .next u) (hd : u.delivered = s.delivered)
    (h : EventuallyAnswered u c rest) : EventuallyAnswered s c rest := by
  obtain ⟨k, t, r, hleads, hp, hr⟩ := h
  exact ⟨k + 1, t, r, ⟨u, hstep, hleads⟩, hp, hd ▸ hr⟩

theorem eventuallyAnswered_of_fatal (h : LiveWith s c rest) (hf : s.fatal = true) :
    EventuallyAnswered s c rest := by
  refine eventuallyAnswered_of_step ?_ (answeredIn_raise .errHalted s c rest)
  rw [h.step_eq, chooseTurn_engine_of_fatal h.pending hf]
  exact engineStep_of_fatal h.pending hf

/-- The live source's turn on a stalled draw. -/
theorem LiveWith.step_stalled {req : DrawReq} (h : LiveWith s c rest) (hf : s.fatal = false)
    (ht : s.tblValid = true) (he : s.engine = .stalled req) : step s = .next (sourceStep s) := by
  rw [h.step_eq, chooseTurn_source h.pending hf ht he h.live]
  rfl

/-- After the source's turn the engine may try. -/
theorem sourceStep_engine_ne_stalled (s : State) (req : DrawReq) :
    (sourceStep s).engine ≠ .stalled req := by
  by_cases hst : ∃ r, s.engine = .stalled r
  · obtain ⟨r, hr⟩ := hst
    rw [sourceStep_stalled hr]
    nofun
  · rw [sourceStep_not_stalled (not_exists.mp hst)]
    exact not_exists.mp hst req

/-- The engine's turn where it may try. -/
theorem LiveWith.step_engine (h : LiveWith s c rest) (hf : s.fatal = false) (ht : s.tblValid = true)
    (he : ∀ req, s.engine ≠ .stalled req) :
    (∃ t, step s = .next t ∧ AnsweredIn s c rest t) ∨
    ∃ i req, decode c.word = .ok i ∧ operation i c s = .hold req ∧
      step s = .next { s with engine := .stalled req } := by
  have hstep : step s = engineStep s := by
    rw [h.step_eq, chooseTurn_engine_of_not_stalled h.pending hf ht he]
    rfl
  rw [hstep]
  exact engineStep_answers_or_holds h.inv h.pending hf ht

/-- In a ready block whose engine may try, by the number of holds that the command has left: each hold is
followed by the source's answer to it. -/
theorem eventuallyAnswered_of_endsWithin {n : Nat} (h : LiveWith s c rest) (hf : s.fatal = false)
    (ht : s.tblValid = true) (he : ∀ req, s.engine ≠ .stalled req)
    (hn : ∀ i, decode c.word = .ok i → EndsWithin (replyOn i c s) n s.entropy) :
    EventuallyAnswered s c rest := by
  induction n generalizing s with
  | zero =>
    rcases h.step_engine hf ht he with ⟨t, hstep, hans⟩ | ⟨i, req, hd, hhold, -⟩
    · exact eventuallyAnswered_of_step hstep hans
    · exact absurd hhold (hn i hd req)
  | succ n ih =>
    rcases h.step_engine hf ht he with ⟨t, hstep, hans⟩ | ⟨i, req, hd, hhold, hstep⟩
    · exact eventuallyAnswered_of_step hstep hans
    · have hstalled := h.next hstep rfl rfl
      have hsource := hstalled.step_stalled hf ht rfl
      refine .of_next hstep rfl (.of_next hsource (sourceStep_delivered _) ?_)
      refine ih (hstalled.next hsource (sourceStep_schedule _) (sourceStep_pending _))
        ((sourceStep_fatal _).trans hf) ((sourceStep_tblValid _).trans ht)
        (sourceStep_engine_ne_stalled _) fun j hj => ?_
      obtain rfl : i = j := Except.ok.inj (hd.symm.trans hj)
      have hreply : replyOn i c (sourceStep { s with engine := .stalled req }) = replyOn i c s :=
        replyOn_congr i c (sourceStep_table _) (sourceStep_cfg _)
      rw [hreply, sourceStep_stalled rfl]
      exact hn i hd req hhold _ (freeAnswer_admits req s.drawCount)

/-- In a ready block: a stalled engine first gets the answer of the source. -/
theorem eventuallyAnswered_of_ready (h : LiveWith s c rest) (hf : s.fatal = false)
    (ht : s.tblValid = true) : EventuallyAnswered s c rest := by
  by_cases he : ∃ req, s.engine = .stalled req
  · obtain ⟨req, hreq⟩ := he
    have hsource := h.step_stalled hf ht hreq
    have hnext := h.next hsource (sourceStep_schedule s) (sourceStep_pending s)
    refine .of_next hsource (sourceStep_delivered s) ?_
    exact eventuallyAnswered_of_endsWithin hnext ((sourceStep_fatal s).trans hf)
      ((sourceStep_tblValid s).trans ht) (sourceStep_engine_ne_stalled s)
      fun i _ => replyOn_endsWithin i c _ _
  · exact eventuallyAnswered_of_endsWithin h hf ht (not_exists.mp he)
      fun i _ => replyOn_endsWithin i c _ _

/-- By the number of entries that the generator has left. -/
theorem eventuallyAnswered_of_not_fatal {n : Nat} (h : LiveWith s c rest) (hf : s.fatal = false)
    (hn : s.genIdx + n = 256) : EventuallyAnswered s c rest := by
  obtain ⟨-, ⟨-, -, hvalid⟩, -⟩ := h.inv
  induction n generalizing s with
  | zero => exact eventuallyAnswered_of_ready h hf (hvalid.mpr hn)
  | succ n ih =>
    have hnot : s.tblValid = false := Bool.eq_false_iff.mpr fun ht => absurd (hvalid.mp ht) (by omega)
    have hstep : step s = .next (genStep s) := by
      rw [h.step_eq, chooseTurn_generator h.pending hf hnot (by omega)]
      rfl
    have hnext := h.next hstep (genStep_schedule s) (genStep_pending s)
    have hidx : (genStep s).genIdx = s.genIdx + 1 := by
      rcases genStep_cases s with ⟨-, he⟩ | ⟨hfull, -⟩
      · rw [he]
      · omega
    obtain ⟨-, ⟨-, -, hvalid'⟩, -⟩ := hnext.inv
    exact .of_next hstep (genStep_delivered s)
      (ih hnext ((genStep_fatal s).trans hf) (by omega) hvalid')

theorem eventuallyAnswered_of_liveWith (h : LiveWith s c rest) : EventuallyAnswered s c rest := by
  obtain ⟨-, ⟨hle, -, -⟩, -⟩ := h.inv
  cases hf : s.fatal with
  | true => exact eventuallyAnswered_of_fatal h hf
  | false => exact eventuallyAnswered_of_not_fatal (n := 256 - s.genIdx) h hf (by omega)

end Progress

/-- Settles O31: a fatal block answers at once, another after the table is complete and at most two stalled
draws are answered. -/
theorem everyCommandIsEventuallyAnswered : Obligations.EveryCommandIsEventuallyAnswered :=
  fun _ _ _ hinv hs hlive hp => eventuallyAnswered_of_liveWith ⟨hinv, hs, hlive, hp⟩

end Sys2Proof.Machine
end

section
/-! PROOFS. The statements of spec/20_memory.md: from the invariant no step faults (rules R41, R101, R134,
R238), and the table has no writer but the generator and the reset (rules R41, R215). -/

namespace Sys2Proof.Machine

/-! ### No step faults (rules R41, R101, R134, R238) -/

/-- The only execution that ends in a fault is one whose operation stops. -/
theorem exec_next {i : Instr} {s : State}
    (hstop : ∀ c rest, Executable s c rest → ∀ f, operation i c s ≠ .stop f) :
    ∃ t, exec i s = .next t := by
  rcases exec_cases i s with ⟨-, h⟩ | ⟨c, rest, -, ⟨-, h⟩ | ⟨-, -, h⟩ | ⟨-, -, st, -, h⟩ |
    ⟨hx, ⟨result, out, used, q, -, -, h⟩ | ⟨used, q, -, h⟩ | ⟨req, -, h⟩ | ⟨f, hf, -⟩⟩⟩
  on_goal 8 => exact absurd hf (hstop c rest hx f)
  all_goals exact ⟨_, h⟩

theorem answerIllegal_next (s : State) : ∃ t, answerIllegal s = .next t := by
  rcases answerIllegal_cases s with ⟨-, h⟩ | ⟨c, rest, -, ⟨-, h⟩ | ⟨-, -, h⟩ | ⟨-, -, h⟩⟩
  all_goals exact ⟨_, h⟩

/-- The engine executes the word of the first outstanding command, and in a block of the invariant that
command's operation does not stop. -/
theorem engineStep_next {s : State} (hinv : Inv s) : ∃ t, engineStep s = .next t := by
  rcases engineStep_cases s with ⟨-, h⟩ | ⟨c, rest, i, hp, hd, h⟩ | ⟨c, rest, e, -, -, h⟩
  · exact ⟨s, h⟩
  · rw [h]
    refine exec_next fun c' rest' hx => ?_
    obtain ⟨hp', -⟩ := id hx
    obtain ⟨rfl, -⟩ : c = c' ∧ rest = rest' := List.cons.inj (hp.symm.trans hp')
    exact operation_ne_stop hinv hx hd
  · rw [h]
    exact answerIllegal_next s

/-- In a block of the invariant every agent's turn has a next state, except a host's second issue. -/
theorem takeTurn_next_or_refused (t : Turn) {s : State} (hinv : Inv s) :
    (∃ u, takeTurn t s = .next u) ∨
    ∃ c, t = .issue c ∧ (∃ d ∈ s.pending, d.host = c.host) ∧
      takeTurn t s = .refused (.secondCommand c.host) := by
  cases t with
  | issue c =>
    rcases issue_cases c s with ⟨-, h⟩ | ⟨hd, h⟩
    · exact .inl ⟨_, h⟩
    · exact .inr ⟨c, rfl, hd, h⟩
  | engine => exact .inl (engineStep_next hinv)
  | reset => exact .inl ⟨_, rfl⟩
  | arbitrate host => exact .inl ⟨_, rfl⟩
  | generator => exact .inl ⟨_, rfl⟩
  | entropy a => exact .inl ⟨_, rfl⟩
  | source => exact .inl ⟨_, rfl⟩
  | idle => exact .inl ⟨_, rfl⟩

/-- No host issues a command but by the schedule. -/
theorem chooseTurn_ne_issue (s : State) (c : Command) : chooseTurn s ≠ .issue c := by
  unfold chooseTurn
  dsimp only
  repeat' split
  all_goals nofun

/-- A step from a state of the invariant has a next state, or it is a scheduled second issue of a host. -/
theorem step_next_or_refused {s : State} (hinv : Inv s) :
    (∃ t, step s = .next t) ∨
    ∃ c l, s.schedule = .issue c :: l ∧ (∃ d ∈ s.pending, d.host = c.host) ∧
      step s = .refused (.secondCommand c.host) := by
  obtain ⟨hpow, -⟩ := id hinv
  rcases step_cases hpow with ⟨t, l, hs, hstep⟩ | ⟨-, hstep⟩
  all_goals rw [hstep]
  · rcases takeTurn_next_or_refused t (s := { s with schedule := l }) hinv with h | ⟨c, rfl, hd, h⟩
    · exact .inl h
    · exact .inr ⟨c, l, hs, hd, h⟩
  · rcases takeTurn_next_or_refused (chooseTurn s) hinv with h | ⟨c, hc, -⟩
    · exact .inl h
    · exact absurd hc (chooseTurn_ne_issue s c)

/-- Settles O24: a step that has no next state is a scheduled second issue, which is refused by name. -/
theorem noStepFaults : Obligations.NoStepFaults := by
  intro s hinv
  rcases step_next_or_refused hinv with ⟨t, hstep⟩ | ⟨c, l, hs, hd, hstep⟩
  all_goals rw [hstep]
  · exact ⟨nofun, nofun⟩
  · refine ⟨nofun, ?_⟩
    rintro _ ⟨⟩
    exact ⟨c, l, hs, rfl, hd⟩

/-! ### The writers of the table (rules R41, R215) -/

/-- The state `t` has the table, GEN_IDX and TBL_VALID of `s`. -/
def SameTable (s t : State) : Prop :=
  t.table = s.table ∧ t.genIdx = s.genIdx ∧ t.tblValid = s.tblValid

/-- No way that an execution can end writes the table. -/
theorem exec_sameTable {i : Instr} {s t : State} (h : exec i s = .next t) : SameTable s t := by
  rcases exec_cases i s with ⟨-, he⟩ | ⟨c, rest, -, ⟨-, he⟩ | ⟨-, -, he⟩ | ⟨-, -, st, -, he⟩ |
    ⟨-, ⟨result, out, used, q, -, -, he⟩ | ⟨used, q, -, he⟩ | ⟨req, -, he⟩ | ⟨f, -, he⟩⟩⟩
  all_goals cases he.symm.trans h
  all_goals exact ⟨rfl, rfl, rfl⟩

theorem answerIllegal_sameTable {s t : State} (h : answerIllegal s = .next t) : SameTable s t := by
  rcases answerIllegal_cases s with ⟨-, he⟩ | ⟨c, rest, -, ⟨-, he⟩ | ⟨-, -, he⟩ | ⟨-, -, he⟩⟩
  all_goals cases he.symm.trans h
  all_goals exact ⟨rfl, rfl, rfl⟩

theorem engineStep_sameTable {s t : State} (h : engineStep s = .next t) : SameTable s t := by
  rcases engineStep_cases s with ⟨-, he⟩ | ⟨c, rest, i, -, -, he⟩ | ⟨c, rest, e, -, -, he⟩
  · cases he.symm.trans h
    exact ⟨rfl, rfl, rfl⟩
  · exact exec_sameTable (he.symm.trans h)
  · exact answerIllegal_sameTable (he.symm.trans h)

theorem issue_sameTable {c : Command} {s t : State} (h : issue c s = .next t) : SameTable s t := by
  rcases issue_cases c s with ⟨-, he⟩ | ⟨-, he⟩
  all_goals cases he.symm.trans h
  exact ⟨rfl, rfl, rfl⟩

/-- Every agent but the generator and the reset leaves the table as it is. -/
theorem takeTurn_sameTable {t : Turn} {s u : State} (hgen : t ≠ .generator) (hreset : t ≠ .reset)
    (h : takeTurn t s = .next u) : SameTable s u := by
  cases t with
  | generator => exact absurd rfl hgen
  | reset => exact absurd rfl hreset
  | issue c => exact issue_sameTable h
  | engine => exact engineStep_sameTable h
  | arbitrate host =>
    cases h
    exact ⟨arbitrate_table host s, arbitrate_genIdx host s, arbitrate_tblValid host s⟩
  | entropy a =>
    cases h
    exact ⟨supply_table a s, supply_genIdx a s, supply_tblValid a s⟩
  | source =>
    cases h
    exact ⟨sourceStep_table s, sourceStep_genIdx s, sourceStep_tblValid s⟩
  | idle =>
    cases h
    exact ⟨rfl, rfl, rfl⟩

/-- Settles O26: the turn only shortens the schedule, and an equal table has equal reads. -/
theorem onlyGeneratorAndResetWriteTheTable : Obligations.OnlyGeneratorAndResetWriteTheTable := by
  intro s t hgen hreset hstep
  have hturn : SameTable (nextTurn s).2 t := takeTurn_sameTable hgen hreset hstep
  rw [nextTurn_state] at hturn
  obtain ⟨htable, hidx, hvalid⟩ := hturn
  exact ⟨fun i => congrArg (CrcTable.read · i) htable, hidx, hvalid⟩

end Sys2Proof.Machine
end

section
/-! PROOFS. The statements of spec/30_encoding.md about the command word: its fields (rule R61), the opcode
map and the encoder (rules R62, R65), the patterns and the illegal words (rules R63, R64). -/

namespace Sys2Proof

/-! ### The fields of a word (rule R61) -/

theorem rsvField_toNat (w : Word) : (rsvField w).toNat = w.toNat / 2 ^ 16 := by
  rw [rsvField, BitVec.extractLsb'_toNat, Nat.shiftRight_eq_div_pow]
  exact Nat.mod_eq_of_lt (by omega)

theorem idxField_toNat (w : Word) : (idxField w).toNat = w.toNat / 2 ^ 8 % 2 ^ 8 := by
  rw [idxField, BitVec.extractLsb'_toNat, Nat.shiftRight_eq_div_pow]

theorem opcField_toNat (w : Word) : (opcField w).toNat = w.toNat % 2 ^ 8 := by
  rw [opcField, BitVec.extractLsb'_toNat, Nat.shiftRight_zero]

/-- IDX and OPC are put side by side: the word's number is their sum, weighted. -/
theorem assembleWord_toNat (idx opc : Byte) :
    (assembleWord idx opc).toNat = idx.toNat * 2 ^ 8 + opc.toNat := by
  have hopc : opc.toNat < 2 ^ 8 := opc.isLt
  have hidx : idx.toNat < 2 ^ 8 := idx.isLt
  have hshift : (idx.zeroExtend 32 <<< 8).toNat = 2 ^ 8 * idx.toNat := by
    simp [Nat.shiftLeft_eq]
    omega
  have hlow : (opc.zeroExtend 32).toNat = opc.toNat := by
    simp
    omega
  rw [assembleWord, BitVec.toNat_or, hshift, hlow, ← Nat.two_pow_add_eq_or_of_lt hopc, Nat.mul_comm]

/-- A word is put together from its own fields exactly when its RSV is zero. -/
theorem eq_assembleWord_iff (w : Word) (idx opc : Byte) :
    w = assembleWord idx opc ↔ rsvField w = 0 ∧ idxField w = idx ∧ opcField w = opc := by
  have hw : w.toNat < 2 ^ 32 := w.isLt
  have hidx : idx.toNat < 2 ^ 8 := idx.isLt
  have hopc : opc.toNat < 2 ^ 8 := opc.isLt
  simp only [← BitVec.toNat_inj, assembleWord_toNat, rsvField_toNat, idxField_toNat, opcField_toNat,
    BitVec.ofNat_eq_ofNat, BitVec.toNat_ofNat]
  omega

/-! ### The opcode map and the encoder (rules R62, R65) -/

/-- OPC of a command's word, from the rows of rule R62. -/
def opcodeOf : Instr → Byte
  | .crc32 => 0x01
  | .tblrd _ => 0x02
  | .skgen => 0x10
  | .penc => 0x20
  | .pdec => 0x21
  | .credenc => 0x30

theorem opcodeOf_mem (i : Instr) :
    (opcodeOf i).toNat ∈ [0x01, 0x02, 0x10, 0x20, 0x21, 0x30] := by
  cases i <;> simp [opcodeOf]

/-- IDX of a command's word: the index of `tblrd`, else zero (rule R65). -/
def indexByteOf : Instr → Byte
  | .tblrd idx => BitVec.ofNat 8 idx
  | _ => 0

theorem encode_eq_assembleWord (i : Instr) : encode i = assembleWord (indexByteOf i) (opcodeOf i) := by
  cases i <;> rfl

theorem opcodeMap_opcodeOf {i : Instr} (h : WellFormed i = true) :
    opcodeMap (opcodeOf i) (indexByteOf i) = some i := by
  cases i with
  | tblrd idx =>
    have hlt : idx < 256 := by simpa [WellFormed] using h
    have hmap : opcodeMap 0x02 (BitVec.ofNat 8 idx) = some (.tblrd (idx % 256)) := rfl
    rw [opcodeOf, indexByteOf, hmap, Nat.mod_eq_of_lt hlt]
  | _ => rfl

/-- Without a stray IDX (the third case of rule R63), the map is the encoder read backwards. -/
theorem opcodeMap_iff (opc idx : Byte) (i : Instr) :
    (opcodeMap opc idx = some i ∧ (opc ≠ 0x02 → idx = 0)) ↔
      WellFormed i = true ∧ idx = indexByteOf i ∧ opc = opcodeOf i := by
  constructor
  · rintro ⟨hmap, hidx⟩
    by_cases htblrd : opc = 0x02
    · subst htblrd
      obtain rfl : Instr.tblrd idx.toNat = i := Option.some.inj hmap
      exact ⟨decide_eq_true idx.isLt, by simp [indexByteOf], rfl⟩
    · obtain rfl := hidx htblrd
      simp only [opcodeMap, if_neg htblrd] at hmap
      split_ifs at hmap
      all_goals
        cases hmap
        exact ⟨rfl, rfl, ‹_›⟩
  · rintro ⟨hwf, rfl, rfl⟩
    refine ⟨opcodeMap_opcodeOf hwf, fun hopc => ?_⟩
    cases i with
    | tblrd idx => exact absurd rfl hopc
    | _ => rfl

/-! ### The decoder (rules R63, R64) -/

theorem decode_of_rsv_ne_zero {w : Word} (h : rsvField w ≠ 0) :
    decode w = .error .reservedNotZero := by
  rw [decode, if_pos h]

theorem decode_of_unknown_opcode {w : Word} (hrsv : rsvField w = 0)
    (hmap : opcodeMap (opcField w) (idxField w) = none) : decode w = .error .unknownOpcode := by
  rw [decode, if_neg (not_not.mpr hrsv), hmap]

theorem decode_of_opcodeMap {w : Word} {i : Instr} (hrsv : rsvField w = 0)
    (hmap : opcodeMap (opcField w) (idxField w) = some i) :
    decode w = if opcField w ≠ 0x02 ∧ idxField w ≠ 0 then .error .indexNotZero else .ok i := by
  rw [decode, if_neg (not_not.mpr hrsv), hmap]

/-- A word is legal when none of the three cases of rule R63 applies, taken in their order. -/
theorem decode_eq_ok_iff (w : Word) (i : Instr) :
    decode w = .ok i ↔
      rsvField w = 0 ∧ opcodeMap (opcField w) (idxField w) = some i ∧
        (opcField w ≠ 0x02 → idxField w = 0) := by
  by_cases hrsv : rsvField w = 0
  · cases hmap : opcodeMap (opcField w) (idxField w) with
    | none =>
      rw [decode_of_unknown_opcode hrsv hmap]
      exact iff_of_false nofun nofun
    | some j =>
      rw [decode_of_opcodeMap hrsv hmap, and_iff_right hrsv]
      split_ifs with hstray
      · obtain ⟨hopc, hne⟩ := hstray
        exact iff_of_false nofun fun ⟨_, hidx⟩ => hne (hidx hopc)
      · rw [and_iff_left (not_and_not_right.mp hstray), Except.ok.injEq, Option.some.injEq]
  · rw [decode_of_rsv_ne_zero hrsv]
    exact iff_of_false nofun fun ⟨h, _⟩ => hrsv h

/-- Settles O2: the decoder's checks are the encoder's fields, and a word with RSV zero is its fields put
together. -/
theorem decodeAndEncodeAgree : Obligations.DecodeAndEncodeAgree := by
  intro w i
  rw [decode_eq_ok_iff, opcodeMap_iff, encode_eq_assembleWord, eq_assembleWord_iff]
  exact and_left_comm

/-- A word is legal or illegal, and not both. -/
theorem decode_error_iff (w : Word) : (∃ e, decode w = .error e) ↔ ∀ i, decode w ≠ .ok i := by
  cases decode w <;> simp

/-- A legal word has RSV zero, an opcode of the map, and no IDX unless the opcode is `tblrd`'s. -/
theorem fields_of_decode {w : Word} {i : Instr} (h : decode w = .ok i) :
    rsvField w = 0 ∧ opcField w = opcodeOf i ∧ (opcField w ≠ 0x02 → idxField w = 0) := by
  obtain ⟨hrsv, hmap, hidx⟩ := (decode_eq_ok_iff w i).mp h
  obtain ⟨-, -, hopc⟩ := (opcodeMap_iff _ _ i).mp ⟨hmap, hidx⟩
  exact ⟨hrsv, hopc, hidx⟩

/-! ### The patterns (rule R64) -/

/-- The pattern of a row with a full mask: the word is the row's match. -/
theorem decode_eq_ok_iff_mask {i : Instr} (hwf : WellFormed i = true) (w : Word) :
    decode w = .ok i ↔ w &&& 0xFFFFFFFF = encode i := by
  have hmask : w &&& 0xFFFFFFFF = w := BitVec.and_allOnes
  rw [decodeAndEncodeAgree, hmask, and_iff_right hwf]

/-- `tblrd`'s mask clears IDX. -/
theorem tblrdMask_fields (w : Word) :
    rsvField (w &&& 0xFFFF00FF) = rsvField w ∧ idxField (w &&& 0xFFFF00FF) = 0 ∧
      opcField (w &&& 0xFFFF00FF) = opcField w := by
  simp only [rsvField, idxField, opcField, BitVec.extractLsb'_and]
  exact ⟨BitVec.and_allOnes, BitVec.and_zero, BitVec.and_allOnes⟩

/-- The pattern of `tblrd`, whose mask leaves IDX open. -/
theorem decode_eq_tblrd_iff_mask (w : Word) :
    (∃ idx, decode w = .ok (.tblrd idx)) ↔ w &&& 0xFFFF00FF = 0x00000002 := by
  obtain ⟨hrsv, hidx, hopc⟩ := tblrdMask_fields w
  have hmatch : (0x00000002 : Word) = assembleWord 0 0x02 := rfl
  rw [hmatch, eq_assembleWord_iff, hrsv, hidx, hopc]
  constructor
  · rintro ⟨idx, h⟩
    obtain ⟨hr, ho, -⟩ := fields_of_decode h
    exact ⟨hr, rfl, ho⟩
  · rintro ⟨hr, -, ho⟩
    refine ⟨(idxField w).toNat, (decode_eq_ok_iff w _).mpr ⟨hr, ?_, fun h => absurd ho h⟩⟩
    rw [ho]
    rfl

/-- Settles O1: each row by its pattern, and an illegal word is one that is no row's. -/
theorem legalWordsMatchTheirPatterns : Obligations.LegalWordsMatchTheirPatterns := by
  intro w
  have hcrc32 := decode_eq_ok_iff_mask (i := .crc32) rfl w
  have htblrd := decode_eq_tblrd_iff_mask w
  have hskgen := decode_eq_ok_iff_mask (i := .skgen) rfl w
  have hpenc := decode_eq_ok_iff_mask (i := .penc) rfl w
  have hpdec := decode_eq_ok_iff_mask (i := .pdec) rfl w
  have hcredenc := decode_eq_ok_iff_mask (i := .credenc) rfl w
  refine ⟨hcrc32, htblrd, hskgen, hpenc, hpdec, hcredenc, ?_⟩
  rw [decode_error_iff]
  constructor
  · intro h
    exact ⟨fun hw => h _ (hcrc32.mpr hw), fun hw => (htblrd.mpr hw).elim fun idx hi => h _ hi,
      fun hw => h _ (hskgen.mpr hw), fun hw => h _ (hpenc.mpr hw), fun hw => h _ (hpdec.mpr hw),
      fun hw => h _ (hcredenc.mpr hw)⟩
  · rintro ⟨hn1, hn2, hn10, hn20, hn21, hn30⟩ i hi
    cases i with
    | crc32 => exact hn1 (hcrc32.mp hi)
    | tblrd idx => exact hn2 (htblrd.mp ⟨idx, hi⟩)
    | skgen => exact hn10 (hskgen.mp hi)
    | penc => exact hn20 (hpenc.mp hi)
    | pdec => exact hn21 (hpdec.mp hi)
    | credenc => exact hn30 (hcredenc.mp hi)

/-- Settles O3: the decoder run on each word. -/
theorem wordsOfTheSpecDecode : Obligations.WordsOfTheSpecDecode :=
  ⟨rfl, rfl, rfl, rfl, rfl, rfl, rfl, rfl, rfl, rfl, rfl⟩

/-- The three cases of rule R63, on the word's number. -/
theorem decode_error_of_number {w : Word}
    (h : w.toNat / 2 ^ 16 ≠ 0 ∨ w.toNat % 2 ^ 8 ∉ [0x01, 0x02, 0x10, 0x20, 0x21, 0x30] ∨
      w.toNat % 2 ^ 8 ≠ 0x02 ∧ w.toNat / 2 ^ 8 % 2 ^ 8 ≠ 0) :
    ∃ e, decode w = .error e := by
  refine (decode_error_iff w).mpr fun i hi => ?_
  obtain ⟨hrsv, hopc, hidx⟩ := fields_of_decode hi
  simp only [← rsvField_toNat, ← opcField_toNat, ← idxField_toNat] at h
  rcases h with hr | ho | ⟨ho, hx⟩
  · exact hr (congrArg BitVec.toNat hrsv)
  · exact ho (hopc ▸ opcodeOf_mem i)
  · exact hx (congrArg BitVec.toNat (hidx fun h => ho (congrArg BitVec.toNat h)))

end Sys2Proof
end

section
/-! PROOFS. The statements of spec/30_encoding.md about a transaction: its issue, the step that executes it, its
response (rules R60, R63, R209, R210, R238), and its assembly (rules R66, R67). -/

namespace Sys2Proof.Machine

/-! ### The issue and the step (rules R60, R209, R238) -/

/-- Settles O28: the turn is the issue, which captures or refuses. -/
theorem issueCapturesTheCommand : Obligations.IssueCapturesTheCommand := by
  intro s c l hp hs
  rw [step_scheduled hs hp]
  rcases issue_cases c { s with schedule := l } with ⟨hnone, h⟩ | ⟨⟨d, hd, heq⟩, h⟩
  · exact ⟨fun _ => h, fun ⟨d, hd, heq⟩ => absurd heq (hnone d hd)⟩
  · exact ⟨fun hnone => absurd heq (hnone d hd), fun _ => h⟩

/-- Without a live source the engine tries a stalled command again (notes/assumptions/4.md). -/
theorem chooseTurn_engine_of_not_live {s : State} {c : Command} {rest : List Command}
    (hp : s.pending = c :: rest) (hf : s.fatal = false) (ht : s.tblValid = true)
    (hlive : s.rngLive = false) : chooseTurn s = .engine := by
  cases heng : s.engine <;> simp [chooseTurn, hp, hf, ht, heng, hlive]

/-- Settles O4: the turn is the engine's, scheduled or chosen, and the first word is legal. -/
theorem stepRunsTheDecodedCommand : Obligations.StepRunsTheDecodedCommand := by
  intro s c rest i hpow hp hd
  refine ⟨fun l hs => ?_, fun hs hturn => ?_⟩
  · rw [step_scheduled hs hpow]
    exact engineStep_of_legal (s := { s with schedule := l }) hp hd
  · have hengine : chooseTurn s = .engine := by
      cases hf : s.fatal with
      | true => exact chooseTurn_engine_of_fatal hp hf
      | false =>
        obtain ⟨ht, hlive | hstall⟩ := hturn.resolve_left (by simp [hf])
        · exact chooseTurn_engine_of_not_live hp hf ht hlive
        · exact chooseTurn_engine_of_not_stalled hp hf ht hstall
    rw [step_chosen hs hpow, hengine]
    exact engineStep_of_legal hp hd

/-! ### The response (rules R60, R63, R209, R210) -/

/-- An illegal word passes the first two checks of rule R209 and fails the third. -/
theorem engineStep_answers_illegal {s : State} {c : Command} {rest : List Command} {e : DecodeError}
    (hp : s.pending = c :: rest) (hd : decode c.word = .error e) (hf : s.fatal = false)
    (ht : s.tblValid = true) : engineStep s = .next (rejected s c rest .errIllegal 0) := by
  have hfatal : ¬ s.fatal = true := by simp [hf]
  rw [engineStep_of_illegal hp hd, answerIllegal_cons hp, if_neg hfatal, if_pos ht,
    raise_eq_rejected rfl]
  rfl

/-- Settles O5: the word does not decode, and the engine has its turn on it. -/
theorem illegalWordsAreAnswered : Obligations.IllegalWordsAreAnswered := by
  intro s c rest l hpow hs hp hf ht hword
  obtain ⟨e, he⟩ := decode_error_of_number hword
  rw [step_scheduled hs hpow]
  exact engineStep_answers_illegal (s := { s with schedule := l }) hp he hf ht

/-- Settles O18: the ways in which an execution can end, each of them a hold or one response. -/
theorem everyExecutionHoldsOrAnswersOnce : Obligations.EveryExecutionHoldsOrAnswersOnce := by
  intro i s t c rest hp hexec
  rcases exec_cases i s with ⟨hnil, -⟩ | ⟨c', rest', hp', h⟩
  · cases hnil.symm.trans hp
  cases hp'.symm.trans hp
  rcases h with ⟨-, h⟩ | ⟨-, -, h⟩ | ⟨-, -, st, -, h⟩ |
    ⟨-, ⟨result, out, used, q, hq, -, h⟩ | ⟨used, q, hq, h⟩ | ⟨req, -, h⟩ | ⟨f, -, h⟩⟩
  all_goals cases h.symm.trans hexec
  · exact .inr ⟨_, _, _, [], _, rfl, rfl⟩
  · exact .inl ⟨_, rfl⟩
  · exact .inr ⟨_, _, _, [], _, rfl, rfl⟩
  · exact .inr ⟨_, _, _, used, q, hq, rfl⟩
  · exact .inr ⟨_, _, _, used, q, hq, rfl⟩
  · exact .inl ⟨_, rfl⟩

/-! ### Assembly (rules R66, R67) -/

/-- The filter is that of `slotBytes`: the operands written for the slot. -/
theorem slotBytes_of_once {env : List (String × Bytes)} {ops : List (Slot × Literal)} {slot : Slot}
    {l : Literal} {x : Bytes} (h : ops.filter (fun o => o.1 == slot) = [(slot, l)])
    (hl : literalBytes env l = some x) : slotBytes env ops slot = some x := by
  rw [slotBytes, h]
  exact hl

theorem slotBytes_of_omitted {env : List (String × Bytes)} {ops : List (Slot × Literal)} {slot : Slot}
    (h : ops.filter (fun o => o.1 == slot) = []) : slotBytes env ops slot = some [] := by
  rw [slotBytes, h]

/-- A well-formed statement whose three slots have bytes assembles to one command. -/
theorem assembleStatement_of_slots {env : List (String × Bytes)} {st : Statement} {w : Word}
    {a b c : Bytes} (hwf : WellFormed st.instr = true) (hw : encode st.instr = w)
    (ha : slotBytes env st.operands .a = some a) (hb : slotBytes env st.operands .b = some b)
    (hc : slotBytes env st.operands .c = some c) (host : Nat) :
    assembleStatement env host st = some { host := host, word := w, a := a, b := b, c := c } := by
  rw [assembleStatement, if_pos hwf, ha, hb, hc, hw]

/-- Settles O59: a slot given once has its literal's bytes, and an omitted slot none. -/
theorem pseudoInstructionsAssemble : Obligations.PseudoInstructionsAssemble := by
  intro env host x y bx bK text m e hx hy
  refine ⟨?checksum, ?sessionkey, ?encrypt, ?decrypt, ?credential⟩
  case checksum | sessionkey =>
    exact assembleStatement_of_slots rfl rfl (slotBytes_of_once rfl hx) (slotBytes_of_omitted rfl)
      (slotBytes_of_omitted rfl) host
  case encrypt | decrypt =>
    exact assembleStatement_of_slots rfl rfl (slotBytes_of_once rfl hx) (slotBytes_of_once rfl hy)
      (slotBytes_of_omitted rfl) host
  case credential =>
    exact assembleStatement_of_slots rfl rfl (slotBytes_of_once rfl rfl) (slotBytes_of_once rfl rfl)
      (slotBytes_of_once rfl rfl) host

end Sys2Proof.Machine
end

section
/-! PROOFS. The statements of spec/40_checksum.md: the generator's step and its 256 entries (rules R81, R82,
R233, R234), and the two commands that read the table (rules R83, R84). -/

namespace Sys2Proof.Machine

open Sys2Proof.Certificates

/-! ### The generator's step (rule R81) -/

theorem and_one_eq_one_iff (x : Word) : x &&& 1 = 1 ↔ x.getLsbD 0 = true := by
  rw [BitVec.toNat_eq, BitVec.toNat_and]
  change x.toNat &&& 1 = 1 ↔ x.toNat.testBit 0 = true
  rw [Nat.and_one_is_mod, Nat.testBit_zero, decide_eq_true_iff]

/-- A round of rule R81's loop as the spec writes it, with the mask in place of the bit. -/
theorem crcBit_eq_ite :
    crcBit = fun x : Word => if x &&& 1 = 1 then 0xEDB88320 ^^^ (x >>> 1) else x >>> 1 := by
  funext x
  simp only [crcBit, and_one_eq_one_iff]

theorem crcBits_eq_iterate (n : Nat) (x : Word) : crcBits n x = crcBit^[n] x := by
  induction n generalizing x with
  | zero => rfl
  | succ n ih => rw [crcBits, ih, Function.iterate_succ_apply]

/-- The entry of rule R81 is eight of its rounds on the index. -/
theorem crcEntry_eq_iterate (i : Nat) :
    crcEntry i = (fun x : Word => if x &&& 1 = 1 then 0xEDB88320 ^^^ (x >>> 1) else x >>> 1)^[8]
      (BitVec.ofNat 32 i) := by
  rw [crcEntry, crcBits_eq_iterate, crcBit_eq_ite]

theorem genStep_of_lt {s : State} (h : s.genIdx < 256) :
    genStep s =
      { s with
        table := CrcTable.write s.table s.genIdx (crcEntry s.genIdx)
        genIdx := s.genIdx + 1
        tblValid := tblValidAfter (s.genIdx + 1) s.tblValid } :=
  if_pos h

theorem genStep_of_ge {s : State} (h : 256 ≤ s.genIdx) : genStep s = s :=
  if_neg (Nat.not_lt.mpr h)

/-- Settles O7: the step writes the entry of GEN_IDX, which is eight rounds of the loop, and a write changes no
other entry. -/
theorem generatorStepWritesOneEntry : Obligations.GeneratorStepWritesOneEntry := by
  intro s l hp hs
  rw [step_scheduled hs hp]
  refine ⟨fun hlt => ⟨CrcTable.write s.table s.genIdx (crcEntry s.genIdx), ?_, ?_,
    fun j hj => table_read_write_other _ _ hj⟩, fun hge => ?_⟩
  · exact congrArg Host.Outcome.next (genStep_of_lt (s := { s with schedule := l }) hlt)
  · rw [table_read_write_self, crcEntry_eq_iterate]
  · exact congrArg Host.Outcome.next (genStep_of_ge (s := { s with schedule := l }) hge)

/-! ### The generated table (rules R82, R233, R234) -/

/-- The values of rule R82 are those of rule R81's loop: a fact about the spec's 256 literals, which has to be
computed. -/
theorem listedTable_eq_map_crcEntry : listedTable = (List.range 256).map crcEntry := by
  decide +kernel

theorem listedTable_length : listedTable.length = 256 := by
  rw [listedTable_eq_map_crcEntry, List.length_map, List.length_range]

/-- The complete table reads as rule R82 lists it, and beyond the list it holds no value. -/
theorem builtTable_read_listed (i : Nat) : CrcTable.read (builtTable 256) i = listedTable[i]? := by
  rw [builtTable_read, listedTable_eq_map_crcEntry, List.getElem?_map]
  split
  · next hlt => rw [List.getElem?_range hlt, Option.map_some]
  · next hge => rw [List.getElem?_eq_none (by simpa using hge), Option.map_none]

/-- The state `r` with the first `n` entries generated, and nothing else changed. -/
def withEntries (r : State) (n : Nat) : State :=
  { r with table := builtTable n, genIdx := n, tblValid := decide (n = 256) }

theorem genStep_withEntries {n : Nat} (r : State) (hn : n < 256) :
    genStep (withEntries r n) = withEntries r (n + 1) := by
  have hvalid : tblValidAfter (n + 1) (decide (n = 256)) = decide (n + 1 = 256) := by
    simp [tblValidAfter, hn.ne]
  rw [genStep_of_lt (s := withEntries r n) hn]
  simp only [withEntries, builtTable_succ, hvalid]

/-- With nothing outstanding, the generator has the turn until the table is complete. -/
theorem chooseTurn_generator_of_idle {s : State} (hp : s.pending = []) (hidx : s.genIdx < 256) :
    chooseTurn s = .generator := by
  simp only [chooseTurn, hp, hidx, if_true]

/-- By the number of steps left: each one is the generator's and adds the next entry. -/
theorem leads_withEntries {r : State} (hpow : r.powered = true) (hs : r.schedule = [])
    (hp : r.pending = []) {k n : Nat} (hle : n + k ≤ 256) :
    Leads k (withEntries r n) (withEntries r (n + k)) := by
  induction k generalizing n with
  | zero => rfl
  | succ k ih =>
    have hlt : n < 256 := by omega
    have hstep : step (withEntries r n) = .next (withEntries r (n + 1)) := by
      have hturn : chooseTurn (withEntries r n) = .generator := chooseTurn_generator_of_idle hp hlt
      rw [step_chosen (s := withEntries r n) hs hpow, hturn]
      exact congrArg Host.Outcome.next (genStep_withEntries r hlt)
    have hrest := ih (n := n + 1) (by omega)
    rw [Nat.add_right_comm, Nat.add_assoc] at hrest
    exact ⟨_, hstep, hrest⟩

/-- A reset leaves the table with no entry. -/
theorem withEntries_zero_resetBlock (s : State) : withEntries (resetBlock s) 0 = resetBlock s := by
  rw [resetBlock_eq]
  rfl

/-- Settles O8: a reset leaves the table with no entry, and 256 steps of the generator complete it. -/
theorem generationGivesTheListedTable : Obligations.GenerationGivesTheListedTable := by
  intro s hs
  have hleads : Leads 256 (withEntries (resetBlock s) 0) (withEntries (resetBlock s) 256) :=
    leads_withEntries (resetBlock_powered s) ((resetBlock_schedule s).trans hs) (resetBlock_pending s)
      le_rfl
  rw [withEntries_zero_resetBlock] at hleads
  exact ⟨builtTable 256, hleads, fun i _ => builtTable_read_listed i⟩

/-! ### The commands that read the table (rules R83, R84) -/

/-- Settles O33: a ready table of the invariant is the complete one, so every read of the loop has its
entry. -/
theorem crc32RunsTheTableLoop : Obligations.Crc32RunsTheTableLoop :=
  fun _ _ _ hinv hx => exec_crc32_of_tableInv hinv hx

/-- Over the complete table `tblrd` answers what the list has at the index, and stops where it has nothing. -/
theorem exec_tblrd_of_tableInv {s : State} {c : Command} {rest : List Command} (hinv : TableInv s)
    (hx : Executable s c rest) (idx : Nat) :
    exec (.tblrd idx) s =
      match listedTable[idx]? with
      | some v => .next (completed s c rest v [] s.entropy)
      | none => .fault (.tableNoValue idx) := by
  obtain ⟨-, -, hready, -⟩ := id hx
  rw [exec_eq_execute, execute_of_executable hx, operation, tblrdOp, table_of_ready hinv hready,
    builtTable_read_listed]
  cases listedTable[idx]? <;> rfl

/-- Settles O35: the list has 256 entries, and `tblrd` answers each of them and no other. -/
theorem tblrdReadsTheListedEntry : Obligations.TblrdReadsTheListedEntry := by
  intro s c rest idx hinv hx
  refine ⟨fun v hv => ?_, fun hge => ?_⟩
  · rw [exec_tblrd_of_tableInv hinv hx, hv]
  · have hnone : listedTable[idx]? = none := List.getElem?_eq_none (listedTable_length.trans_le hge)
    rw [exec_tblrd_of_tableInv hinv hx, hnone]

end Sys2Proof.Machine
end

section
/-! PROOFS. The statements of spec/41_session_key.md: what `skgen` answers (rules R101, R102), and that
`credenc` uses neither KE_PAD nor the server key (rule R103). -/

namespace Sys2Proof.Machine

/-! ### The RSA unit (rules R170, R171) -/

/-- Square and multiply carries `acc = m^(e / 2^k) mod n` down to `k = 0`. -/
theorem modPowBits_of_high_bits (n m e k : Nat) :
    modPowBits n m e k (m ^ (e >>> k) % n) = m ^ e % n := by
  induction k with
  | zero => rfl
  | succ k ih =>
    have hbits : e >>> k = (e >>> (k + 1) + e >>> (k + 1)) + (e.testBit k).toNat := by
      rw [Nat.shiftRight_succ, Nat.toNat_testBit, ← Nat.shiftRight_eq_div_pow]
      omega
    rw [modPowBits, ← ih, hbits, pow_add, pow_add, Nat.mul_mod (_ * _),
      Nat.mul_mod (m ^ (e >>> (k + 1)))]
    congr 1
    cases e.testBit k <;> simp

/-- The RSA unit's result is the modular power. -/
theorem rsaep_eq_pow_mod (n e m : Nat) : rsaep n e m = m ^ e % n := by
  have hshift : e >>> (e.log2 + 1) = 0 := by
    rw [Nat.shiftRight_eq_div_pow, Nat.div_eq_of_lt Nat.lt_log2_self]
  have hstart : 1 % n = m ^ (e >>> (e.log2 + 1)) % n := by rw [hshift, pow_zero]
  rw [rsaep, hstart, modPowBits_of_high_bits]

theorem rsaEncrypt_eq_some_iff {n e k : Nat} {em ct : Bytes} :
    rsaEncrypt n e k em = some ct ↔
      (1 ≤ e ∧ os2ip em < n) ∧ i2osp (os2ip em ^ e % n) k = ct := by
  rw [rsaEncrypt, Option.ite_none_right_eq_some, Option.some.injEq, rsaep_eq_pow_mod]

theorem rsaEncrypt_length {n e k : Nat} {em ct : Bytes} (h : rsaEncrypt n e k em = some ct) :
    ct.length = k := by
  obtain ⟨-, rfl⟩ := rsaEncrypt_eq_some_iff.mp h
  exact i2osp_length _ _

/-! ### Successful commands -/

/-- A draw whose operation succeeds took the first entry that answers it, and what follows the draw
succeeded on the entries behind. -/
theorem withDraw_done {req : DrawReq} {q q' : List Answer} {k : Bytes → List Answer → Reply}
    {result : Word} {out : Bytes} (h : withDraw req q k = .done result out q') :
    ∃ skipped v rest, q = skipped ++ .bytes v :: rest ∧ NoAnswers req skipped ∧
      answersReq req v = true ∧ k v rest = .done result out q' := by
  rcases takeDraw_cases req q with ⟨skipped, v, rest, hq, hskip, hv, hd⟩ | ⟨-, rest, -, -, hd⟩ |
    ⟨-, hd⟩
  all_goals rw [withDraw, hd] at h
  · exact ⟨skipped, v, rest, hq, hskip, hv, h⟩
  · cases h
  · cases h

/-- The state after a success tells what was answered and which of the source's answers are left. -/
theorem completed_inj {s : State} {c : Command} {rest : List Command} {result result' : Word}
    {out out' : Bytes} {q q' : List Answer} :
    completed s c rest result out q = completed s c rest result' out' q' ↔
      result = result' ∧ out = out' ∧ q = q' := by
  simp only [completed, State.mk.injEq, List.append_cancel_left_eq, List.cons.injEq, Delivery.mk.injEq,
    Response.mk.injEq, true_and, and_true]
  exact and_rotate

theorem raise_ne_completed {st : Status} (hst : st ≠ .ok) (s : State) (c : Command) (rest : List Command)
    (result : Word) (out : Bytes) (q q' : List Answer) :
    raise st c rest { s with entropy := q' } ≠ completed s c rest result out q := by
  intro h
  have hdel := congrArg State.delivered h
  simp [raise_delivered, completed, hst] at hdel

theorem ok_not_mem_ownErrors (i : Instr) : Status.ok ∉ ownErrors i := by
  cases i <;> simp [ownErrors]

/-- A command that passes the common checks succeeds exactly when its operation does: no other end delivers
`OK`. -/
theorem exec_eq_completed_iff {i : Instr} {s : State} {c : Command} {rest : List Command} {result : Word}
    {out : Bytes} {q : List Answer} (hx : Executable s c rest) :
    exec i s = .next (completed s c rest result out q) ↔ operation i c s = .done result out q := by
  have hcommit : exec i s = commit c rest s (operation i c s) := by
    rw [exec_eq_execute, execute_of_executable hx]
  rw [hcommit]
  refine ⟨fun h => ?_, fun h => h ▸ rfl⟩
  rcases operation_shape i c s with ⟨result', out', -, q', -, hr⟩ | ⟨st, hst, hr⟩ |
    ⟨-, q', -, hr⟩ | ⟨req, hr⟩ | ⟨f, hr⟩
  all_goals rw [hr] at h ⊢
  · obtain ⟨rfl, rfl, rfl⟩ := completed_inj.mp (Host.Outcome.next.inj h)
    rfl
  · have hok : st ≠ .ok := fun he => ok_not_mem_ownErrors i (he ▸ hst)
    exact absurd (Host.Outcome.next.inj h) (raise_ne_completed hok s c rest result out q s.entropy)
  · exact absurd (Host.Outcome.next.inj h) (raise_ne_completed (by decide) s c rest result out q q')
  · have hdel := congrArg State.delivered (Host.Outcome.next.inj h)
    simp [completed] at hdel
  · cases h

/-! ### Session keys (rules R101, R102) -/

/-- A server key that passes the reset check encrypts an encoding that begins with a zero byte and has at
most 128 bytes. -/
theorem skgenFinish_zero_cons {cfg : Cfg} {x : Bytes} (hn : 256 ^ 127 ≤ cfg.serverN.toNat)
    (he : 1 ≤ cfg.serverE.toNat) (hx : x.length < 128) (plain : Bytes) (q : List Answer) :
    skgenFinish cfg plain (0 :: x) q =
      .done 0 (plain ++ i2osp (os2ip (0 :: x) ^ cfg.serverE.toNat % cfg.serverN.toNat) 128) q := by
  have hoct : octlen cfg.serverN.toNat = 128 :=
    octlen_of_bounds (by omega) hn (toNat_lt_pow_bytes (k := 128) rfl cfg.serverN)
  obtain ⟨ct, hct⟩ := rsaEncrypt_zero_cons (k := 128) (Nat.one_le_iff_ne_zero.mp he) (hoct ▸ hx)
  obtain ⟨-, hpow⟩ := rsaEncrypt_eq_some_iff.mp hct
  rw [skgenFinish, hct, hpow]

/-- The operation from its second draw on, where the first is answered by the head of the queue. -/
theorem skgenOp_of_plain {c : Command} {s : State} {plain : Bytes} {q : List Answer} (ha : c.a.length = 16)
    (hq : s.entropy = .bytes plain :: q) (hplain : plain.length = 32) :
    skgenOp c s = skgenPad s.cfg c.a plain q := by
  rw [skgenOp_of_length ha, hq, withDraw_answer (answersReq_any.mpr hplain)]

theorem skgenPad_of_oaep {cfg : Cfg} (hpad : cfg.kePad = .oaepSha1) (nonce plain : Bytes) (q : List Answer) :
    skgenPad cfg nonce plain q = withDraw (.any 20) q fun seed q' =>
      skgenFinish cfg plain (emeOaepSha1 128 (plain ++ nonce) seed) q' := by
  simp only [skgenPad, hpad]

theorem skgenPad_of_pkcs1 {cfg : Cfg} (hpad : cfg.kePad = .pkcs1V15) (nonce plain : Bytes)
    (q : List Answer) :
    skgenPad cfg nonce plain q = withDraw (.nonzero 77) q fun ps q' =>
      skgenFinish cfg plain (emePkcs1V15 (plain ++ nonce) ps) q' := by
  simp only [skgenPad, hpad]

/-- Settles O36: the OAEP encoding is a zero byte and at most 127 others. -/
theorem skgenEncapsulatesWithOaep : Obligations.SkgenEncapsulatesWithOaep := by
  intro s c rest plain seed q hx ha hpad hn he hq hplain hseed
  obtain ⟨x, hem, hlen⟩ := emeOaepSha1_eq_cons 128 (plain ++ c.a) seed
  rw [exec_eq_completed_iff hx, operation, skgenOp_of_plain ha hq hplain, skgenPad_of_oaep hpad,
    withDraw_answer (answersReq_any.mpr hseed), hem]
  exact skgenFinish_zero_cons hn he (by omega) plain q

/-- Settles O37: the PKCS#1 v1.5 encoding is a zero byte and 127 others. -/
theorem skgenEncapsulatesWithPkcs1 : Obligations.SkgenEncapsulatesWithPkcs1 := by
  intro s c rest plain ps q hx ha hpad hn he hq hplain hps hnz
  have hlen : ([0x02] ++ ps ++ [0x00] ++ (plain ++ c.a)).length < 128 := by simp [hps, hplain, ha]
  have hem : [0x00, 0x02] ++ ps ++ [0x00] ++ plain ++ c.a = emePkcs1V15 (plain ++ c.a) ps :=
    List.append_assoc ..
  rw [exec_eq_completed_iff hx, operation, skgenOp_of_plain ha hq hplain, skgenPad_of_pkcs1 hpad,
    withDraw_answer (answersReq_nonzero.mpr ⟨hps, hnz⟩), hem, emePkcs1V15_eq_cons]
  exact skgenFinish_zero_cons hn he hlen plain q

theorem skgenFinish_done {cfg : Cfg} {plain em out : Bytes} {q q' : List Answer} {result : Word}
    (h : skgenFinish cfg plain em q = .done result out q') :
    result = 0 ∧ ∃ ct, ct.length = 128 ∧ out = plain ++ ct := by
  unfold skgenFinish at h
  split at h
  · next ct hct =>
    cases h
    exact ⟨rfl, ct, rsaEncrypt_length hct, rfl⟩
  · cases h

/-- Under either padding a success is the session key and its encapsulation. -/
theorem skgenPad_done {cfg : Cfg} {nonce plain out : Bytes} {q q' : List Answer} {result : Word}
    (h : skgenPad cfg nonce plain q = .done result out q') :
    result = 0 ∧ ∃ ct, ct.length = 128 ∧ out = plain ++ ct := by
  unfold skgenPad at h
  split at h
  all_goals
    obtain ⟨_, _, _, -, -, -, hfin⟩ := withDraw_done h
    exact skgenFinish_done hfin

/-- A success of the operation: the first entry that answers the draw of the session key, and 128 bytes. -/
theorem skgenOp_done {c : Command} {s : State} {out : Bytes} {q : List Answer} {result : Word}
    (h : skgenOp c s = .done result out q) :
    result = 0 ∧ ∃ skipped plain rest ct, s.entropy = skipped ++ .bytes plain :: rest ∧
      NoAnswers (.any 32) skipped ∧ plain.length = 32 ∧ ct.length = 128 ∧ out = plain ++ ct := by
  unfold skgenOp at h
  split at h
  · cases h
  · obtain ⟨skipped, plain, rest, hq, hskip, hplain, hpad⟩ := withDraw_done h
    obtain ⟨hresult, ct, hct, hout⟩ := skgenPad_done hpad
    exact ⟨hresult, skipped, plain, rest, ct, hq, hskip, answersReq_any.mp hplain, hct, hout⟩

/-- Settles O38: the nonce is checked before the first draw, and a success leads with that draw's bytes. -/
theorem skgenChecksTheNonceAndAnswers160Bytes : Obligations.SkgenChecksTheNonceAndAnswers160Bytes := by
  intro s c rest hx
  refine ⟨fun ha => ?_, fun result out q h => ?_⟩
  · have hop : operation .skgen c s = .raise .errLength s.entropy := if_pos ha
    rw [exec_eq_execute, execute_of_executable hx, hop, commit, raise_eq_rejected rfl]
    rfl
  · obtain ⟨hresult, skipped, plain, rest', ct, hq, hskip, hplain, hct, rfl⟩ :=
      skgenOp_done ((exec_eq_completed_iff hx).mp h)
    have hlead : (plain ++ ct).take 32 = plain := List.take_left' hplain
    refine ⟨hresult, by rw [List.length_append, hplain, hct], skipped, rest', by rw [hlead, hq],
      fun a hmem => ?_⟩
    obtain ⟨v, rfl, hv⟩ := hskip a hmem
    exact ⟨v, rfl, of_decide_eq_false hv⟩

/-! ### What does not use the server key (rules R103, R134) -/

/-- The same block built with another padding and another server key. -/
def withServerKey (pad : KePad) (n e : BitVec 1024) (s : State) : State :=
  { s with cfg := { s.cfg with kePad := pad, serverN := n, serverE := e } }

/-- What `f` makes of the next state, where there is one. -/
def mapNext (f : State → State) : Result → Result
  | .next t => .next (f t)
  | .fault r => .fault r
  | .refused r => .refused r

section ServerKey

variable (pad : KePad) (n e : BitVec 1024)

theorem latchFatal_withServerKey (st : Status) (s : State) :
    latchFatal st (withServerKey pad n e s) = withServerKey pad n e (latchFatal st s) :=
  (apply_ite (withServerKey pad n e) (st.setsFatal && !s.fatal)
    { s with fatal := true, fatalCause := st.code } s).symm

theorem raise_withServerKey (st : Status) (c : Command) (rest : List Command) (s : State) :
    raise st c rest (withServerKey pad n e s) = withServerKey pad n e (raise st c rest s) := by
  rw [raise, raise, latchFatal_withServerKey]
  rfl

theorem commit_withServerKey (c : Command) (rest : List Command) (s : State) (r : Reply) :
    commit c rest (withServerKey pad n e s) r = mapNext (withServerKey pad n e) (commit c rest s r) := by
  cases r with
  | done result out q => rfl
  | raise st q =>
    exact congrArg Host.Outcome.next (raise_withServerKey pad n e st c rest { s with entropy := q })
  | hold req => rfl
  | stop f => rfl

/-- The common checks use of CFG the operand limit alone, so what the operation uses decides. -/
theorem execute_withServerKey {op : Command → State → Reply}
    (hop : ∀ c s, op c (withServerKey pad n e s) = op c s) (s : State) :
    execute op (withServerKey pad n e s) = mapNext (withServerKey pad n e) (execute op s) := by
  cases hp : s.pending with
  | nil => simp only [execute, whenReady, withServerKey, hp, mapNext]
  | cons c rest =>
    have hp' : (withServerKey pad n e s).pending = c :: rest := hp
    have hlimit : operandTooLong (withServerKey pad n e s).cfg c = operandTooLong s.cfg c := rfl
    rw [execute_cons op hp, execute_cons op hp', hlimit, hop, commit_withServerKey, raise_withServerKey,
      raise_withServerKey]
    simp only [apply_ite (mapNext (withServerKey pad n e))]
    rfl

theorem credencOp_withServerKey (c : Command) (s : State) :
    credencOp c (withServerKey pad n e s) = credencOp c s := by
  rcases credencOp_cases c with ⟨st, hraise⟩ | ⟨_, _, _, hdraw⟩
  · rw [hraise, hraise]
    rfl
  · rw [hdraw, hdraw]
    rfl

/-- `credenc` does the same under every padding and server key, whatever its end. -/
theorem exec_credenc_withServerKey (s : State) :
    exec .credenc (withServerKey pad n e s) = mapNext (withServerKey pad n e) (exec .credenc s) := by
  rw [exec_eq_execute, exec_eq_execute]
  exact execute_withServerKey pad n e (credencOp_withServerKey pad n e) s

end ServerKey

/-- Settles O56: the operation uses the entropy source's answers alone, and the checks the operand limit. -/
theorem credencUsesNoServerKey : Obligations.CredencUsesNoServerKey := by
  intro s t pad n e h
  have hexec := exec_credenc_withServerKey pad n e s
  rw [h] at hexec
  exact hexec

end Sys2Proof.Machine
end

section
/-! PROOFS. The statements of spec/44_prim_aes.md that the payload cipher rests on: decryption undoes
encryption (rules R140 to R146), in CBC mode too (rules R150, R151), and what unpadding accepts (rules R152,
R153). -/

namespace Sys2Proof.Machine

/-! ### Byte sequences (rule R11) -/

@[simp] theorem slice_zero (x : Bytes) (n : Nat) : slice x 0 n = x.take n := rfl

@[simp] theorem xorBytes_length (x y : Bytes) : (xorBytes x y).length = min x.length y.length :=
  List.length_zipWith

theorem xorBytes_cancel_right {x y : Bytes} (h : x.length ≤ y.length) :
    xorBytes (xorBytes x y) y = x := by
  refine List.ext_getElem (by simp [h]) fun i _ _ => ?_
  simp [xorBytes]

/-! ### The state as cells (rule R140) -/

@[simp] theorem ofCells_length (f : Nat → Nat → Byte) : (ofCells f).length = 16 := rfl

@[simp] theorem cell_ofCells (f : Nat → Nat → Byte) {r c : Nat} (hr : r < 4) (hc : c < 4) :
    cell (ofCells f) r c = f r c := by
  have hlt : r + 4 * c < 16 := by omega
  have hrow : (r + 4 * c) % 4 = r := by omega
  have hcol : (r + 4 * c) / 4 = c := by omega
  simp [cell, ofCells, hlt, hrow, hcol]

/-- A state of 16 bytes is known by its cells. -/
theorem ofCells_eq {f : Nat → Nat → Byte} {s : Bytes} (hs : s.length = 16)
    (h : ∀ r c, r < 4 → c < 4 → f r c = cell s r c) : ofCells f = s := by
  refine List.ext_getElem hs.symm fun i hi hi' => ?_
  have hindex : i % 4 + 4 * (i / 4) = i := by omega
  have hcell : f (i % 4) (i / 4) = cell s (i % 4) (i / 4) := h _ _ (by omega) (by omega)
  simpa [ofCells, cell, hindex, hi'] using hcell

/-! ### The round functions and their inverses (rules R144 to R146) -/

theorem invSbox_sbox : ∀ a : Byte, invSbox (sbox a) = a := by decide +kernel

@[simp] theorem subBytes_length (s : Bytes) : (subBytes s).length = s.length := List.length_map _

theorem invSubBytes_subBytes (s : Bytes) : invSubBytes (subBytes s) = s := by
  simp [invSubBytes, subBytes, Function.comp_def, invSbox_sbox]

@[simp] theorem shiftRows_length (s : Bytes) : (shiftRows s).length = 16 := ofCells_length _

theorem invShiftRows_shiftRows {s : Bytes} (hs : s.length = 16) : invShiftRows (shiftRows s) = s := by
  refine ofCells_eq hs fun r c hr hc => ?_
  have hback : ((c + 4 - r) % 4 + r) % 4 = c := by omega
  rw [shiftRows, cell_ofCells _ hr (Nat.mod_lt _ (by decide)), hback]

theorem invSubBytes_invShiftRows_cancel {s : Bytes} (hs : s.length = 16) :
    invSubBytes (invShiftRows (shiftRows (subBytes s))) = s := by
  rw [invShiftRows_shiftRows (by simpa using hs), invSubBytes_subBytes]

@[simp] theorem addRoundKey_length (w : List Bytes) (r : Nat) (s : Bytes) :
    (addRoundKey w r s).length = 16 := ofCells_length _

theorem addRoundKey_addRoundKey (w : List Bytes) (r : Nat) {s : Bytes} (hs : s.length = 16) :
    addRoundKey w r (addRoundKey w r s) = s := by
  refine ofCells_eq hs fun j c hj hc => ?_
  rw [addRoundKey, cell_ofCells _ hj hc, BitVec.xor_assoc, BitVec.xor_self, BitVec.xor_zero]

theorem gmulBits_xor (n : Nat) (a b c : Byte) :
    gmulBits n a (b ^^^ c) = gmulBits n a b ^^^ gmulBits n a c := by
  induction n generalizing a b c with
  | zero => exact (BitVec.xor_self (x := 0)).symm
  | succ n ih =>
    have hbit : (if (b ^^^ c).getLsbD 0 then a else 0) =
        (if b.getLsbD 0 then a else 0) ^^^ (if c.getLsbD 0 then a else 0) := by
      rw [BitVec.getLsbD_xor]
      cases b.getLsbD 0 <;> cases c.getLsbD 0 <;> simp
    rw [gmulBits, BitVec.ushiftRight_xor_distrib, ih, hbit, gmulBits, gmulBits]
    ac_rfl

/-- Multiplication by a constant is linear. -/
theorem gmul_xor (k a b : Byte) : gmul k (a ^^^ b) = gmul k a ^^^ gmul k b := gmulBits_xor 8 k a b

/-- What holds of the bytes with one bit set and passes to exclusive ors holds of every byte. -/
theorem byte_xor_induction {P : Byte → Prop} (hxor : ∀ a b, P a → P b → P (a ^^^ b))
    (hbit : ∀ i < 8, P (BitVec.twoPow 8 i)) (x : Byte) : P x := by
  have hone : P 1 := hbit 0 (by decide)
  have hzero : P 0 := by simpa using hxor 1 1 hone hone
  have hsum : ∀ y : Byte,
      ((List.range 8).map fun i => y &&& BitVec.twoPow 8 i).foldr (· ^^^ ·) 0 = y := by decide +kernel
  have hall : ∀ l : List Byte, (∀ b ∈ l, P b) → P (l.foldr (· ^^^ ·) 0) := fun l hl => by
    induction l with
    | nil => exact hzero
    | cons b l ih =>
      exact hxor _ _ (hl b (by simp)) (ih fun c hc => hl c (List.mem_cons_of_mem b hc))
  rw [← hsum x]
  refine hall _ fun b hb => ?_
  obtain ⟨i, hi, rfl⟩ := List.mem_map.mp hb
  rw [BitVec.and_twoPow]
  split
  · exact hbit i (List.mem_range.mp hi)
  · exact hzero

/-- An entry of the product of two circulant matrices, applied to a byte: `l` is the first row of the one, and
`k` that of the other, rotated left by the entry's distance from the diagonal. -/
def circulantProduct (l0 l1 l2 l3 k0 k1 k2 k3 x : Byte) : Byte :=
  gmul l0 (gmul k0 x) ^^^ gmul l1 (gmul k3 x) ^^^ gmul l2 (gmul k2 x) ^^^ gmul l3 (gmul k1 x)

theorem circulantProduct_xor (l0 l1 l2 l3 k0 k1 k2 k3 a b : Byte) :
    circulantProduct l0 l1 l2 l3 k0 k1 k2 k3 (a ^^^ b) =
      circulantProduct l0 l1 l2 l3 k0 k1 k2 k3 a ^^^ circulantProduct l0 l1 l2 l3 k0 k1 k2 k3 b := by
  simp only [circulantProduct, gmul_xor]
  ac_rfl

/-- At the byte `x`, the product of the two circulant matrices is the identity. -/
abbrev CirculantInverseAt (l0 l1 l2 l3 k0 k1 k2 k3 x : Byte) : Prop :=
  circulantProduct l0 l1 l2 l3 k0 k1 k2 k3 x = x ∧ circulantProduct l0 l1 l2 l3 k1 k2 k3 k0 x = 0 ∧
    circulantProduct l0 l1 l2 l3 k2 k3 k0 k1 x = 0 ∧ circulantProduct l0 l1 l2 l3 k3 k0 k1 k2 x = 0

/-- Being linear, the two matrices are inverse when they are so at the bytes with one bit set. -/
theorem circulantInverseAt_of_bits {l0 l1 l2 l3 k0 k1 k2 k3 : Byte}
    (hbit : ∀ i < 8, CirculantInverseAt l0 l1 l2 l3 k0 k1 k2 k3 (BitVec.twoPow 8 i)) (x : Byte) :
    CirculantInverseAt l0 l1 l2 l3 k0 k1 k2 k3 x := by
  refine byte_xor_induction (fun a b ha hb => ?_) hbit x
  obtain ⟨ha0, ha1, ha2, ha3⟩ := ha
  obtain ⟨hb0, hb1, hb2, hb3⟩ := hb
  refine ⟨?_, ?_, ?_, ?_⟩ <;> simp [circulantProduct_xor, *]

/-- Mixing a column by both matrices gathers, for each cell of it, one entry of their product. -/
theorem mixColumn_mixColumn (l0 l1 l2 l3 k0 k1 k2 k3 : Byte) (s : Bytes) {r c : Nat} (hr : r < 4)
    (hc : c < 4) :
    mixColumn l0 l1 l2 l3 (ofCells (mixColumn k0 k1 k2 k3 s)) r c =
      circulantProduct l0 l1 l2 l3 k0 k1 k2 k3 (cell s r c) ^^^
        circulantProduct l0 l1 l2 l3 k1 k2 k3 k0 (cell s ((r + 1) % 4) c) ^^^
        circulantProduct l0 l1 l2 l3 k2 k3 k0 k1 (cell s ((r + 2) % 4) c) ^^^
        circulantProduct l0 l1 l2 l3 k3 k0 k1 k2 (cell s ((r + 3) % 4) c) := by
  have hcell : ∀ i, cell (ofCells (mixColumn k0 k1 k2 k3 s)) (i % 4) c =
      mixColumn k0 k1 k2 k3 s (i % 4) c := fun i => cell_ofCells _ (Nat.mod_lt i (by decide)) hc
  have hwrap : (r + 4) % 4 = r ∧ (r + 5) % 4 = (r + 1) % 4 ∧ (r + 6) % 4 = (r + 2) % 4 := by omega
  obtain ⟨hwrap4, hwrap5, hwrap6⟩ := hwrap
  rw [mixColumn, hcell, hcell, hcell, cell_ofCells _ hr hc]
  simp only [mixColumn, circulantProduct, gmul_xor, Nat.mod_add_mod, Nat.add_assoc, Nat.reduceAdd, hwrap4,
    hwrap5, hwrap6]
  ac_rfl

theorem mixColumn_cancel {l0 l1 l2 l3 k0 k1 k2 k3 : Byte}
    (h : ∀ x, CirculantInverseAt l0 l1 l2 l3 k0 k1 k2 k3 x) (s : Bytes) {r c : Nat} (hr : r < 4)
    (hc : c < 4) :
    mixColumn l0 l1 l2 l3 (ofCells (mixColumn k0 k1 k2 k3 s)) r c = cell s r c := by
  obtain ⟨hdiag, -, -, -⟩ := h (cell s r c)
  obtain ⟨-, hnext, -, -⟩ := h (cell s ((r + 1) % 4) c)
  obtain ⟨-, -, hacross, -⟩ := h (cell s ((r + 2) % 4) c)
  obtain ⟨-, -, -, hlast⟩ := h (cell s ((r + 3) % 4) c)
  rw [mixColumn_mixColumn _ _ _ _ _ _ _ _ s hr hc, hdiag, hnext, hacross, hlast]
  simp

theorem invMixColumns_mixColumns {s : Bytes} (hs : s.length = 16) : invMixColumns (mixColumns s) = s :=
  ofCells_eq hs fun _ _ =>
    mixColumn_cancel (circulantInverseAt_of_bits (by decide +kernel)) s

/-! ### The block cipher (rules R141 to R143) -/

@[simp] theorem aes256Enc_length (k x : Bytes) : (aes256Enc k x).length = 16 := addRoundKey_length ..

@[simp] theorem aes256Dec_length (k y : Bytes) : (aes256Dec k y).length = 16 := addRoundKey_length ..

/-- A round of decryption takes the round of encryption off a block that the next two round functions have
changed: the keys and the mixing cancel behind the rows and the bytes. -/
theorem decRound_encRound (w : List Bytes) (r : Nat) (s : Bytes) :
    decRound w r (shiftRows (subBytes (encRound w r s))) = shiftRows (subBytes s) := by
  have hmix : (mixColumns (shiftRows (subBytes s))).length = 16 := ofCells_length _
  rw [decRound, encRound, invSubBytes_invShiftRows_cancel (addRoundKey_length ..),
    addRoundKey_addRoundKey w r hmix, invMixColumns_mixColumns (shiftRows_length _)]

theorem decRounds_encRounds (w : List Bytes) (n : Nat) (s : Bytes) :
    decRounds w n (shiftRows (subBytes (encRounds w n s))) = shiftRows (subBytes s) := by
  induction n with
  | zero => rfl
  | succ n ih => rw [decRounds, encRounds, decRound_encRound, ih]

/-- Decryption undoes encryption on every block, whatever the key. -/
theorem aes256Dec_aes256Enc (k : Bytes) {x : Bytes} (hx : x.length = 16) :
    aes256Dec k (aes256Enc k x) = x := by
  simp only [aes256Dec, aes256Enc]
  rw [addRoundKey_addRoundKey _ _ (shiftRows_length _), decRounds_encRounds,
    invSubBytes_invShiftRows_cancel (addRoundKey_length ..), addRoundKey_addRoundKey _ _ hx]

/-! ### CBC mode (rules R150, R151) -/

theorem cbcEncBlocks_length (k : Bytes) (n : Nat) (prev q : Bytes) :
    (cbcEncBlocks k n prev q).length = 16 * n := by
  induction n generalizing prev q with
  | zero => rfl
  | succ n ih => rw [cbcEncBlocks, List.length_append, aes256Enc_length, ih, Nat.mul_succ, Nat.add_comm]

theorem cbcEnc_length (k iv : Bytes) {q : Bytes} (hq : q.length % 16 = 0) :
    (cbcEnc k iv q).length = q.length := by
  rw [cbcEnc, cbcEncBlocks_length, Nat.mul_div_cancel' (Nat.dvd_of_mod_eq_zero hq)]

theorem cbcDecBlocks_length (k : Bytes) (n : Nat) {prev ct : Bytes} (hprev : prev.length = 16)
    (hct : ct.length = 16 * n) : (cbcDecBlocks k n prev ct).length = 16 * n := by
  induction n generalizing prev ct with
  | zero => rfl
  | succ n ih =>
    have htake : (ct.take 16).length = 16 := by rw [List.length_take]; omega
    have hdrop : (ct.drop 16).length = 16 * n := by rw [List.length_drop]; omega
    rw [cbcDecBlocks, List.length_append, xorBytes_length, aes256Dec_length, hprev, ih htake hdrop]
    omega

theorem cbcDec_length (k : Bytes) {iv ct : Bytes} (hiv : iv.length = 16) (hct : ct.length % 16 = 0) :
    (cbcDec k iv ct).length = ct.length := by
  have hblocks : 16 * (ct.length / 16) = ct.length := Nat.mul_div_cancel' (Nat.dvd_of_mod_eq_zero hct)
  rw [cbcDec, cbcDecBlocks_length k _ hiv hblocks.symm, hblocks]

theorem cbcDecBlocks_cbcEncBlocks (k : Bytes) (n : Nat) {prev q : Bytes} (hprev : prev.length = 16)
    (hq : q.length = 16 * n) : cbcDecBlocks k n prev (cbcEncBlocks k n prev q) = q := by
  induction n generalizing prev q with
  | zero => exact (List.length_eq_zero_iff.mp hq).symm
  | succ n ih =>
    have htake : (q.take 16).length = 16 := by rw [List.length_take]; omega
    have hdrop : (q.drop 16).length = 16 * n := by rw [List.length_drop]; omega
    have hxor : (xorBytes (q.take 16) prev).length = 16 := by simp [htake, hprev]
    simp only [cbcEncBlocks, cbcDecBlocks]
    rw [List.take_left' (aes256Enc_length ..), List.drop_left' (aes256Enc_length ..),
      aes256Dec_aes256Enc k hxor, xorBytes_cancel_right (htake.trans hprev.symm).le,
      ih (aes256Enc_length ..) hdrop, List.take_append_drop]

/-- CBC decryption undoes CBC encryption, whatever the key. -/
theorem cbcDec_cbcEnc (k : Bytes) {iv q : Bytes} (hiv : iv.length = 16) (hq : q.length % 16 = 0) :
    cbcDec k iv (cbcEnc k iv q) = q := by
  rw [cbcDec, cbcEnc_length k iv hq]
  exact cbcDecBlocks_cbcEncBlocks k _ hiv (Nat.mul_div_cancel' (Nat.dvd_of_mod_eq_zero hq)).symm

/-! ### Padding (rules R152, R153) -/

/-- Padding fills the last block, and adds one to whole blocks. -/
theorem pad16_length (p : Bytes) : (pad16 p).length = 16 * (p.length / 16 + 1) := by
  simp only [pad16, rep, List.length_append, List.length_replicate]
  omega

/-- Unpadding accepts whole blocks that end in `p` bytes of value `p` for some `p` in 1..16. -/
theorem unpad16_eq_some_iff (q x : Bytes) :
    unpad16 q = some x ↔
      q.length % 16 = 0 ∧ ∃ p, 1 ≤ p ∧ p ≤ 16 ∧ q = x ++ List.replicate p (BitVec.ofNat 8 p) := by
  constructor
  · intro h
    simp only [unpad16] at h
    generalize hp : (q.getD (q.length - 1) 0).toNat = p at h
    split at h
    · cases h
    next hlen =>
    split at h
    · cases h
    next hrange =>
    split at h
    next hpad =>
      obtain rfl := Option.some.inj h
      have hdrop : slice q (q.length - p) q.length = q.drop (q.length - p) :=
        List.take_of_length_le (by rw [List.length_drop])
      refine ⟨by omega, p, by omega, by omega, ?_⟩
      rw [hdrop, rep] at hpad
      rw [← hpad, List.take_append_drop]
    · cases h
  · rintro ⟨hmod, p, hp1, hp16, rfl⟩
    have hlen : (x ++ List.replicate p (BitVec.ofNat 8 p)).length = x.length + p := by simp
    have hlast : ((x ++ List.replicate p (BitVec.ofNat 8 p)).getD (x.length + p - 1) 0).toNat = p := by
      have hidx : x.length + p - 1 = x.length + (p - 1) := by omega
      have hin : p - 1 < p := by omega
      have hbyte : p % 256 = p := Nat.mod_eq_of_lt (by omega)
      simp [hidx, hin, hbyte]
    simp only [unpad16, hlen] at hmod ⊢
    rw [if_neg (by omega), hlast, if_neg (by omega), Nat.add_sub_cancel, if_pos ?_, List.take_left]
    simp [slice, rep]

theorem unpad16_pad16 (p : Bytes) : unpad16 (pad16 p) = some p := by
  refine (unpad16_eq_some_iff _ p).mpr ⟨?_, 16 - p.length % 16, by omega, by omega, rfl⟩
  rw [pad16_length, Nat.mul_mod_right]

/-- Unpadding takes off 1 to 16 bytes. -/
theorem unpad16_length {q x : Bytes} (h : unpad16 q = some x) :
    x.length + 1 ≤ q.length ∧ q.length ≤ x.length + 16 := by
  obtain ⟨-, p, hp1, hp16, rfl⟩ := (unpad16_eq_some_iff q x).mp h
  simp only [List.length_append, List.length_replicate]
  omega

end Sys2Proof.Machine
end

section
/-! PROOFS. The statements of spec/42_payload_cipher.md: the derived IV (rule R110) with the digest lengths of
spec/45_prim_sha1_hmac.md, what `penc` and `pdec` answer (rules R113 to R115), and the laws of the family
(rules R116, R117). -/

namespace Sys2Proof.Machine

/-! ### The derived IV (rules R110, R160, R164) -/

theorem sha1Digest_length (h : Sha1State) : (sha1Digest h).length = 20 := by
  simp [sha1Digest]

theorem sha1_length (m : Bytes) : (sha1 m).length = 20 := by
  unfold sha1
  split
  · exact sha1Digest_length _
  · exact i2osp_length _ _

theorem hmacSha1_length (k m : Bytes) : (hmacSha1 k m).length = 20 := sha1_length _

theorem hmacIv_eq (k r p : Bytes) :
    hmacIv k r p = (hmacSha1 (k.take 16) (r ++ p)).take 13 ++ r := rfl

/-- The part of the derived IV before the draw. -/
theorem digestPart_length (k m : Bytes) : ((hmacSha1 k m).take 13).length = 13 := by
  rw [List.length_take, hmacSha1_length]
  rfl

theorem hmacIv_length (k p : Bytes) {r : Bytes} (hr : r.length = 3) : (hmacIv k r p).length = 16 := by
  rw [hmacIv_eq, List.length_append, digestPart_length, hr]

/-- Settles O50: the digest's part is 13 bytes, and the key stands only in its first 16 bytes. -/
theorem derivedIvIsDigestThenDraw : Obligations.DerivedIvIsDigestThenDraw := by
  refine ⟨sha1_length, hmacSha1_length, fun k k' r p hr hk => ⟨hmacIv_length k p hr, ?_, ?_, ?_⟩⟩
  · rw [hmacIv_eq, List.take_left' (digestPart_length ..)]
  · rw [hmacIv_eq, List.drop_left' (digestPart_length ..)]
  · rw [hmacIv_eq, hmacIv_eq, hk]

/-! ### Encryption (rules R112, R113) -/

theorem pencOp_of_key {c : Command} (h : c.b.length ≠ 32) (s : State) :
    pencOp c s = .raise .errLength s.entropy := if_pos h

theorem pencOp_done {c : Command} {s : State} {result : Word} {out : Bytes} {q : List Answer}
    (h : pencOp c s = .done result out q) :
    c.b.length = 32 ∧ ∃ r, r.length = 3 ∧ out = pencFrame c.b r c.a := by
  unfold pencOp at h
  split at h
  · cases h
  next hkey =>
    obtain ⟨_, r, _, -, -, hr, hdone⟩ := withDraw_done h
    cases hdone
    exact ⟨not_not.mp hkey, r, answersReq_any.mp hr, rfl⟩

/-- Settles O39: the draw is the head of the source's answers. -/
theorem pencAnswersTheFrame : Obligations.PencAnswersTheFrame := by
  intro s c rest r q hx hkey hq hr
  rw [exec_eq_completed_iff hx, operation, pencOp_of_length hkey, hq, withDraw_answer (answersReq_any.mpr hr)]
  rfl

theorem cbcEnc_pad16_length (k iv p : Bytes) :
    (cbcEnc k iv (pad16 p)).length = 16 * (p.length / 16 + 1) := by
  rw [cbcEnc_length _ _ (by rw [pad16_length, Nat.mul_mod_right]), pad16_length]

/-- A frame is the encrypted IV and the padded plaintext's blocks. -/
theorem pencFrame_length (k r p : Bytes) : (pencFrame k r p).length = 16 * (p.length / 16 + 2) := by
  rw [pencFrame, List.length_append, aes256Enc_length, cbcEnc_pad16_length]
  omega

/-! ### Decryption (rules R114, R115) -/

theorem frameMalformed_eq_false_iff (f : Bytes) :
    frameMalformed f = false ↔ 32 ≤ f.length ∧ f.length % 16 = 0 := by
  rw [frameMalformed, decide_eq_false_iff_not]
  omega

/-- The first check of rule R115, before the frame is looked at. -/
theorem pdecOp_of_key {c : Command} (h : c.b.length ≠ 32) (s : State) :
    pdecOp c s = .raise .errLength s.entropy := if_pos h

theorem pdecOp_of_frame {c : Command} (hkey : c.b.length = 32) (h : frameMalformed c.a = true) (s : State) :
    pdecOp c s = .raise .errFrame s.entropy := by
  rw [pdecOp, if_neg (not_not.mpr hkey), if_pos h]

theorem pdecOp_of_padding {c : Command} (hkey : c.b.length = 32) (hframe : frameMalformed c.a = false)
    (h : pdecPlain c.b c.a = none) (s : State) : pdecOp c s = .raise .errPadding s.entropy := by
  simp only [pdecOp, hkey, hframe, h, ne_eq, not_true_eq_false, Bool.false_eq_true, if_false]

/-- The operation succeeds exactly on a key and a frame of right length whose decryption unpads. -/
theorem pdecOp_eq_done_iff {c : Command} {s : State} {result : Word} {out : Bytes} {q : List Answer} :
    pdecOp c s = .done result out q ↔
      c.b.length = 32 ∧ frameMalformed c.a = false ∧ pdecPlain c.b c.a = some out ∧ result = 0 ∧
        q = s.entropy := by
  constructor
  · intro h
    unfold pdecOp at h
    split at h
    · cases h
    next hkey =>
    split at h
    · cases h
    next hframe =>
    split at h
    · cases h
    next p hplain =>
      cases h
      exact ⟨not_not.mp hkey, Bool.eq_false_iff.mpr hframe, hplain, rfl, rfl⟩
  · rintro ⟨hkey, hframe, hplain, rfl, rfl⟩
    simp only [pdecOp, hkey, hframe, hplain, ne_eq, not_true_eq_false, Bool.false_eq_true, if_false]

/-- An error of the operation's own, after the common checks. -/
theorem exec_of_raise {i : Instr} {s : State} {c : Command} {rest : List Command} {st : Status}
    (hx : Executable s c rest) (hlatch : st.setsFatal = false) (hresult : errorResult st s = 0)
    (h : operation i c s = .raise st s.entropy) : exec i s = .next (rejected s c rest st 0) := by
  rw [exec_eq_execute, execute_of_executable hx, h, commit, raise_eq_rejected hlatch, ← hresult]

/-- Settles O40: each check has its lemma, and an error that is not fatal leaves the state but for its
response. -/
theorem payloadChecksInOrder : Obligations.PayloadChecksInOrder := by
  intro s c rest hx
  refine ⟨fun hkey => ⟨exec_of_raise hx rfl rfl (pencOp_of_key hkey s),
      exec_of_raise hx rfl rfl (pdecOp_of_key hkey s)⟩,
    fun hkey hframe => exec_of_raise hx rfl rfl (pdecOp_of_frame hkey (decide_eq_true hframe) s),
    fun hkey hlen hblocks hplain => exec_of_raise hx rfl rfl ?_⟩
  exact pdecOp_of_padding hkey ((frameMalformed_eq_false_iff c.a).mpr ⟨hlen, hblocks⟩) hplain s

/-- Settles O41: a key and a frame of right length and valid padding pass every check. -/
theorem pdecAnswersThePlaintext : Obligations.PdecAnswersThePlaintext := by
  intro s c rest p hx hkey hlen hblocks hplain
  have hframe : frameMalformed c.a = false := (frameMalformed_eq_false_iff c.a).mpr ⟨hlen, hblocks⟩
  exact (exec_eq_completed_iff hx).mpr (pdecOp_eq_done_iff.mpr ⟨hkey, hframe, hplain, rfl, rfl⟩)

/-! ### The laws of the family (rules R116, R117) -/

/-- The plaintext is what the ciphertext blocks hold before 1 to 16 bytes of padding. -/
theorem pdecPlain_length {k f p : Bytes} (hframe : frameMalformed f = false) (h : pdecPlain k f = some p) :
    f.length - 32 ≤ p.length ∧ p.length + 17 ≤ f.length := by
  obtain ⟨hlen, hblocks⟩ := (frameMalformed_eq_false_iff f).mp hframe
  have hdrop : (f.drop 16).length = f.length - 16 := List.length_drop
  have hplain := unpad16_length h
  rw [cbcDec_length k (aes256Dec_length ..) (by omega), hdrop] at hplain
  omega

/-- Settles O42: a success of either operation is a frame or an unpadded decryption. -/
theorem payloadOutputLengths : Obligations.PayloadOutputLengths := by
  intro s c rest result out q hx
  refine ⟨fun h => ?_, fun h => ?_⟩
  · obtain ⟨-, r, -, rfl⟩ := pencOp_done ((exec_eq_completed_iff hx).mp h)
    exact pencFrame_length ..
  · obtain ⟨-, hframe, hplain, -, -⟩ := pdecOp_eq_done_iff.mp ((exec_eq_completed_iff hx).mp h)
    exact pdecPlain_length hframe hplain

theorem frameMalformed_pencFrame (k r p : Bytes) : frameMalformed (pencFrame k r p) = false := by
  rw [frameMalformed_eq_false_iff, pencFrame_length]
  omega

/-- Rule R116's three inverses: of the IV's encryption, of CBC mode and of the padding. -/
theorem pdecPlain_pencFrame (k p : Bytes) {r : Bytes} (hr : r.length = 3) :
    pdecPlain k (pencFrame k r p) = some p := by
  have hiv : (hmacIv k r p).length = 16 := hmacIv_length k p hr
  have hblocks : (pad16 p).length % 16 = 0 := by rw [pad16_length, Nat.mul_mod_right]
  simp only [pdecPlain, pencFrame, slice_zero]
  rw [List.take_left' (aes256Enc_length ..), List.drop_left' (aes256Enc_length ..), aes256Dec_aes256Enc k hiv,
    cbcDec_cbcEnc k hiv hblocks, unpad16_pad16]

/-- Settles O43: a success of `penc` is a frame under a key of 32 bytes, and `pdec` opens every such frame. -/
theorem pdecUndoesPenc : Obligations.PdecUndoesPenc := by
  intro s s' c c' rest rest' result frame q hx hpenc hx' hframe hkey
  obtain ⟨hlen, r, hr, rfl⟩ := pencOp_done ((exec_eq_completed_iff hx).mp hpenc)
  refine (exec_eq_completed_iff hx').mpr (pdecOp_eq_done_iff.mpr ⟨by rw [hkey, hlen], ?_, ?_, rfl, rfl⟩)
  · rw [hframe]
    exact frameMalformed_pencFrame ..
  · rw [hframe, hkey]
    exact pdecPlain_pencFrame _ _ hr

end Sys2Proof.Machine
end

section
/-! PROOFS. The statements of spec/43_credential.md: the checks of `credenc` in their order (rule R131), the
encrypted secret that it answers (rules R131, R132), and the base64 text it writes (rules R133, R187). -/

namespace Sys2Proof.Machine

open Sys2Proof.Certificates

/-! ### The checks (rule R131) -/

theorem credencOp_of_hex {c : Command} (h : hexDecode c.b = none ∨ hexDecode c.c = none) (s : State) :
    credencOp c s = .raise .errHex s.entropy := by
  rcases h with hn | he
  · simp only [credencOp, hn]
  · cases hn : hexDecode c.b <;> simp only [credencOp, hn, he]

theorem credencOp_of_zero_key {c : Command} {nb eb : Bytes} (s : State) (hn : hexDecode c.b = some nb)
    (he : hexDecode c.c = some eb) (hkey : os2ip nb = 0 ∨ os2ip eb = 0) :
    credencOp c s = .raise .errKey s.entropy := by
  simp only [credencOp, hn, he, credencWithKey, if_pos hkey]

theorem credencOp_of_too_large {c : Command} {nb eb : Bytes} (s : State) (hn : hexDecode c.b = some nb)
    (he : hexDecode c.c = some eb) (hn0 : os2ip nb ≠ 0) (he0 : os2ip eb ≠ 0)
    (hlen : octlen (os2ip nb) < c.a.length + 11) :
    credencOp c s = .raise .errTooLarge s.entropy := by
  simp only [credencOp, hn, he, credencWithKey, if_neg (not_or.mpr ⟨hn0, he0⟩), if_pos hlen]

/-- Settles O55: each check has its lemma; a modulus below `256^(L + 10)` has fewer than `L + 11` octets. -/
theorem credencChecksInOrder : Obligations.CredencChecksInOrder := by
  intro s c rest hx
  refine ⟨fun h => exec_of_raise hx rfl rfl (credencOp_of_hex h s), fun nb eb hn he =>
    ⟨fun hkey => exec_of_raise hx rfl rfl (credencOp_of_zero_key s hn he hkey),
      fun hnpos hepos hsmall => exec_of_raise hx rfl rfl ?_⟩⟩
  have hlen : octlen (os2ip nb) ≤ c.a.length + 10 := (lt_pow_iff_octlen_le _ _).mp hsmall
  exact credencOp_of_too_large s hn he hnpos.ne' hepos.ne' (Nat.lt_succ_of_le hlen)

/-! ### The encrypted secret (rules R131, R132) -/

/-- The encoding begins with a zero byte, so one no longer than the modulus is below it. -/
theorem credencFinish_of_fits {n e k : Nat} {secret ps : Bytes} (he : e ≠ 0)
    (hlen : ps.length + secret.length + 2 < octlen n) (q : List Answer) :
    credencFinish n e k secret ps q =
      .done 0 (base64 (i2osp (os2ip (emePkcs1V15 secret ps) ^ e % n) k)) q := by
  have hfits : ([0x02] ++ ps ++ [0x00] ++ secret).length < octlen n := by
    simp only [List.length_append, List.length_singleton]
    omega
  obtain ⟨ct, hct⟩ := rsaEncrypt_zero_cons (k := k) he hfits
  rw [← emePkcs1V15_eq_cons] at hct
  obtain ⟨-, hpow⟩ := rsaEncrypt_eq_some_iff.mp hct
  rw [credencFinish, hct, hpow]

/-- Settles O54: the operation reaches its draw, takes the padding at the head of the queue, and the
encoding of `k` bytes fits a modulus of `k` octets. -/
theorem credencAnswersTheEncryptedSecret : Obligations.CredencAnswersTheEncryptedSecret := by
  intro s c rest nb eb ps k q hx hn he hepos hlow hhigh hlen hq hps hnz
  have hnpos : 0 < os2ip nb := (Nat.pow_pos (by omega)).trans_le hlow
  have hk : octlen (os2ip nb) = k := octlen_of_bounds (by omega) hlow hhigh
  rw [exec_eq_completed_iff hx, operation,
    credencOp_of_accepted s hn he hnpos.ne' hepos.ne' hk hlen, hq,
    withDraw_answer (answersReq_nonzero.mpr ⟨hps, hnz⟩)]
  exact credencFinish_of_fits hepos.ne' (by omega) q

/-! ### I2OSP after OS2IP (rule R13) -/

/-- I2OSP writes the low `k` bytes alone. -/
theorem i2osp_mul_add (a v k : Nat) : i2osp (a * 256 ^ k + v) k = i2osp v k := by
  induction k generalizing a with
  | zero => rfl
  | succ k ih =>
    have hpow : a * 256 ^ (k + 1) + v = a * 256 * 256 ^ k + v := by ring
    have hdiv : (a * 256 * 256 ^ k + v) / 256 ^ k = a * 256 + v / 256 ^ k := by
      rw [add_comm, Nat.add_mul_div_right _ _ (Nat.pow_pos (by omega)), add_comm]
    have hbyte : BitVec.ofNat 8 (a * 256 + v / 256 ^ k) = BitVec.ofNat 8 (v / 256 ^ k) :=
      BitVec.eq_of_toNat_eq (by simp)
    rw [i2osp, i2osp, hpow, hdiv, hbyte, ih]

theorem i2osp_os2ip (x : Bytes) : i2osp (os2ip x) x.length = x := by
  induction x with
  | nil => rfl
  | cons b x ih =>
    have hdiv : (b.toNat * 256 ^ x.length + os2ip x) / 256 ^ x.length = b.toNat := by
      rw [add_comm, Nat.add_mul_div_right _ _ (Nat.pow_pos (by omega)),
        Nat.div_eq_of_lt (os2ip_lt x), Nat.zero_add]
    rw [os2ip_cons, List.length_cons, i2osp, hdiv, i2osp_mul_add, ih, BitVec.ofNat_toNat,
      BitVec.setWidth_eq]

/-! ### The base64 text (rules R133, R187) -/

/-- Each of the 64 characters reads as its index, and none is the padding character. -/
theorem base64Char_reads_back :
    ∀ q < 64, base64Value (base64Char q) = q ∧ base64Char q ≠ 0x3d := by decide

@[simp] theorem base64Value_base64Digit (v j : Nat) :
    base64Value (base64Digit v j) = v / 2 ^ (18 - 6 * j) % 64 :=
  (base64Char_reads_back _ (Nat.mod_lt _ (by decide))).1

theorem base64Digit_ne_pad (v j : Nat) : base64Digit v j ≠ 0x3d :=
  (base64Char_reads_back _ (Nat.mod_lt _ (by decide))).2

theorem base64Value_pad : base64Value 0x3d = 0 := rfl

/-- How many bytes a group holds, by its last two characters. -/
def base64GroupBytes (r s : Byte) : Nat := if r = 0x3d then 1 else if s = 0x3d then 2 else 3

theorem base64GroupBytes_digit_pad (v j : Nat) : base64GroupBytes (base64Digit v j) 0x3d = 2 :=
  if_neg (base64Digit_ne_pad v j)

theorem base64GroupBytes_digits (v i j : Nat) :
    base64GroupBytes (base64Digit v i) (base64Digit v j) = 3 := by
  rw [base64GroupBytes, if_neg (base64Digit_ne_pad v i), if_neg (base64Digit_ne_pad v j)]

/-- A group whose last two characters have the values of the last two digits reads back as a prefix of the
three bytes `w`: a padding character may stand for a digit 0. -/
theorem base64Read_group {w : Bytes} (hw : w.length = 3) {r s : Byte}
    (hr : base64Value r = base64Value (base64Digit (os2ip w) 2))
    (hs : base64Value s = base64Value (base64Digit (os2ip w) 3)) (rest : Bytes) :
    base64Read (base64Digit (os2ip w) 0 :: base64Digit (os2ip w) 1 :: r :: s :: rest) =
      w.take (base64GroupBytes r s) ++ base64Read rest := by
  have hlt : os2ip w < 2 ^ 24 := by simpa [hw] using os2ip_lt w
  have hdigits : base64Value (base64Digit (os2ip w) 0) * 2 ^ 18 +
      base64Value (base64Digit (os2ip w) 1) * 2 ^ 12 + base64Value r * 2 ^ 6 + base64Value s =
        os2ip w := by
    simp only [hr, hs, base64Value_base64Digit]
    omega
  have hbytes : i2osp (os2ip w) 3 = w := hw ▸ i2osp_os2ip w
  rw [base64Read, hdigits, hbytes]
  rfl

theorem base64_length (x : Bytes) : (base64 x).length = 4 * ((x.length + 2) / 3) := by
  induction x using base64.induct with
  | case1 => rfl
  | case2 x => simp [base64]
  | case3 x y => simp [base64]
  | case4 x y z rest ih =>
    simp only [base64, List.length_append, List.length_cons, List.length_nil, ih]
    omega

/-- The bytes that the last group lacks count as zero, so the digits that padding replaces are 0. -/
theorem base64Read_base64 (x : Bytes) : base64Read (base64 x) = x := by
  induction x using base64.induct with
  | case1 => rfl
  | case2 x =>
    have hv : os2ip [x, 0, 0] = x.toNat * 2 ^ 16 := by simp [os2ip_cons]
    refine base64Read_group (w := [x, 0, 0]) rfl ?_ ?_ []
    all_goals
      rw [base64Value_pad, base64Value_base64Digit, hv]
      omega
  | case3 x y =>
    have hv : os2ip [x, y, 0] = x.toNat * 2 ^ 16 + y.toNat * 2 ^ 8 := by simp [os2ip_cons]
    have hlow : base64Value 0x3d = base64Value (base64Digit (os2ip [x, y, 0]) 3) := by
      rw [base64Value_pad, base64Value_base64Digit, hv]
      omega
    have hgroup := base64Read_group rfl rfl hlow []
    rw [base64GroupBytes_digit_pad] at hgroup
    exact hgroup
  | case4 x y z rest ih =>
    have hgroup := base64Read_group (w := [x, y, z]) rfl rfl rfl (base64 rest)
    rw [base64GroupBytes_digits, ih] at hgroup
    exact hgroup

/-- Settles O58: both by the recursion of the encoder, three bytes at a time. -/
theorem base64ReadsBack : Obligations.Base64ReadsBack :=
  fun x => ⟨base64_length x, base64Read_base64 x⟩

end Sys2Proof.Machine
end

section
/-! PROOFS. The statements of spec/44_prim_aes.md about the cipher itself: each direction is the other's inverse
(rule R143), a block of CBC decryption (rule R151), what unpadding accepts (rules R152, R153), and the S-box as a
formula in GF(2^8) (rule R144). -/

namespace Sys2Proof.Machine

/-! ### The block cipher as a permutation (rule R143) -/

/-- A block of rule R140: 16 bytes. -/
abbrev AesBlock := List.Vector Byte 16

def aesEncBlock (k : Bytes) (x : AesBlock) : AesBlock := ⟨aes256Enc k x.toList, aes256Enc_length ..⟩

def aesDecBlock (k : Bytes) (y : AesBlock) : AesBlock := ⟨aes256Dec k y.toList, aes256Dec_length ..⟩

theorem aesDecBlock_leftInverse (k : Bytes) : Function.LeftInverse (aesDecBlock k) (aesEncBlock k) :=
  fun x => Subtype.ext (aes256Dec_aes256Enc k x.toList_length)

/-- Encryption is injective on the finitely many blocks, so every block is a ciphertext. -/
theorem aesEncBlock_surjective (k : Bytes) : Function.Surjective (aesEncBlock k) :=
  Finite.injective_iff_surjective.mp (aesDecBlock_leftInverse k).injective

/-- Encryption undoes decryption on every block, whatever the key. -/
theorem aes256Enc_aes256Dec (k : Bytes) {y : Bytes} (hy : y.length = 16) :
    aes256Enc k (aes256Dec k y) = y := by
  have hright := (aesDecBlock_leftInverse k).rightInverse_of_surjective (aesEncBlock_surjective k)
  exact congrArg List.Vector.toList (hright ⟨y, hy⟩)

/-- FIPS-197 Appendix C.3. -/
theorem aes256Enc_fipsVector :
    aes256Enc (i2osp 0x000102030405060708090a0b0c0d0e0f101112131415161718191a1b1c1d1e1f 32)
        (i2osp 0x00112233445566778899aabbccddeeff 16) =
      i2osp 0x8ea2b7ca516745bfeafc49904b496089 16 := by
  decide +kernel

/-- Settles O44: decryption is a left inverse round by round, and so a right inverse, blocks being finitely
many. -/
theorem aesDecryptionInvertsEncryption : Obligations.AesDecryptionInvertsEncryption :=
  ⟨fun k x _ hx => ⟨aes256Enc_length k x, aes256Dec_length k x, aes256Dec_aes256Enc k hx,
    aes256Enc_aes256Dec k hx⟩, aes256Enc_fipsVector⟩

/-! ### A block of CBC decryption (rules R11, R151) -/

theorem slice_drop (x : Bytes) (n a b : Nat) : slice (x.drop n) a b = slice x (n + a) (n + b) := by
  rw [slice, slice, List.drop_drop, Nat.add_sub_add_left]

theorem slice_append_right {x : Bytes} {n : Nat} (hx : x.length = n) (y : Bytes) (a b : Nat) :
    slice (x ++ y) (n + a) (n + b) = slice y a b := by
  rw [← slice_drop, List.drop_left' hx]

/-- The block before the first one is the block that the loop starts from. -/
theorem slice_cbcDecBlocks (k : Bytes) {n j : Nat} {prev ct : Bytes} (hprev : prev.length = 16)
    (hct : ct.length = 16 * n) (hj : j < n) :
    slice (cbcDecBlocks k n prev ct) (16 * j) (16 * j + 16) =
      xorBytes (aes256Dec k (slice ct (16 * j) (16 * j + 16)))
        (if j = 0 then prev else slice ct (16 * j - 16) (16 * j)) := by
  induction n generalizing j prev ct with
  | zero => omega
  | succ n ih =>
    have htake : (ct.take 16).length = 16 := by rw [List.length_take]; omega
    have hdrop : (ct.drop 16).length = 16 * n := by rw [List.length_drop]; omega
    have hblock : (xorBytes (aes256Dec k (ct.take 16)) prev).length = 16 := by simp [hprev]
    rw [cbcDecBlocks]
    cases j with
    | zero => exact List.take_left' hblock
    | succ j =>
      have hstart : 16 * (j + 1) = 16 + 16 * j := by omega
      rw [hstart, Nat.add_assoc, slice_append_right hblock, ih htake hdrop (by omega), slice_drop,
        if_neg j.succ_ne_zero]
      congr 1
      split
      next hzero => rw [hzero, Nat.add_sub_cancel_left, slice_zero]
      next hpos =>
        have hprevious : 16 + (16 * j - 16) = 16 + 16 * j - 16 := by omega
        rw [slice_drop, hprevious]

/-- Settles O45: the inversion is `cbcDec_cbcEnc`, and the formula of a block goes by the loop. -/
theorem cbcDecryptionInvertsEncryption : Obligations.CbcDecryptionInvertsEncryption :=
  ⟨fun k _ _ _ hiv hq => cbcDec_cbcEnc k hiv hq, fun k _ _ _ _ hiv hct hj =>
    slice_cbcDecBlocks k hiv (Nat.mul_div_cancel' (Nat.dvd_of_mod_eq_zero hct)).symm (by omega)⟩

/-! ### Padding (rules R152, R153) -/

/-- Settles O46: the two lemmas that `pdec` rests on. -/
theorem unpadAcceptsExactlyThePadded : Obligations.UnpadAcceptsExactlyThePadded :=
  ⟨unpad16_pad16, unpad16_eq_some_iff⟩

/-! ### Multiplication in GF(2^8) (rule R140) -/

theorem xtime_xor (a b : Byte) : xtime (a ^^^ b) = xtime a ^^^ xtime b := by
  have hbit : (if (a ^^^ b).getLsbD 7 then (0x1B : Byte) else 0x00) =
      (if a.getLsbD 7 then 0x1B else 0x00) ^^^ (if b.getLsbD 7 then 0x1B else 0x00) := by
    rw [BitVec.getLsbD_xor]
    cases a.getLsbD 7 <;> cases b.getLsbD 7 <;> rfl
  rw [xtime, BitVec.shiftLeft_xor_distrib, hbit, xtime, xtime]
  ac_rfl

theorem gmulBits_xor_left (n : Nat) (a b c : Byte) :
    gmulBits n (a ^^^ b) c = gmulBits n a c ^^^ gmulBits n b c := by
  induction n generalizing a b c with
  | zero => exact (BitVec.xor_self (x := 0)).symm
  | succ n ih =>
    have hbit : (if c.getLsbD 0 then a ^^^ b else 0) =
        (if c.getLsbD 0 then a else 0) ^^^ (if c.getLsbD 0 then b else 0) := by
      cases c.getLsbD 0 <;> simp
    rw [gmulBits, xtime_xor, ih, hbit, gmulBits, gmulBits]
    ac_rfl

theorem gmul_xor_left (a b c : Byte) : gmul (a ^^^ b) c = gmul a c ^^^ gmul b c :=
  gmulBits_xor_left 8 a b c

theorem one_gmul (a : Byte) : gmul 1 a = a := by
  induction a using byte_xor_induction with
  | hxor a b ha hb => rw [gmul_xor, ha, hb]
  | hbit i hi => revert i; decide

theorem gmul_one (a : Byte) : gmul a 1 = a := by
  induction a using byte_xor_induction with
  | hxor a b ha hb => rw [gmul_xor_left, ha, hb]
  | hbit i hi => revert i; decide

theorem gmul_assoc_bits : ∀ i < 8, ∀ j < 8, ∀ l < 8,
    gmul (gmul (BitVec.twoPow 8 i) (BitVec.twoPow 8 j)) (BitVec.twoPow 8 l) =
      gmul (BitVec.twoPow 8 i) (gmul (BitVec.twoPow 8 j) (BitVec.twoPow 8 l)) := by
  decide +kernel

/-- Both sides are linear in each factor, so the bytes with one bit set decide. -/
theorem gmul_assoc (a b c : Byte) : gmul (gmul a b) c = gmul a (gmul b c) := by
  induction a using byte_xor_induction with
  | hxor a a' ha ha' => simp only [gmul_xor_left, ha, ha']
  | hbit i hi =>
    induction b using byte_xor_induction with
    | hxor b b' hb hb' => simp only [gmul_xor, gmul_xor_left, hb, hb']
    | hbit j hj =>
      induction c using byte_xor_induction with
      | hxor c c' hc hc' => simp only [gmul_xor, hc, hc']
      | hbit l hl => exact gmul_assoc_bits i hi j hj l hl

/-! ### The S-box (rule R144) -/

theorem gmul_iterate (a b : Byte) (n : Nat) : (gmul a)^[n] b = gmul ((gmul a)^[n] 1) b := by
  induction n with
  | zero => exact (one_gmul b).symm
  | succ n ih => rw [Function.iterate_succ_apply', Function.iterate_succ_apply', ih, gmul_assoc]

/-- One round of square and multiply: from `a^m` to `a^(2m + 2)`. -/
def mulSquare (a b : Byte) : Byte := gmul (gmul a b) (gmul a b)

theorem mulSquare_power (a : Byte) (m : Nat) :
    mulSquare a ((gmul a)^[m] 1) = (gmul a)^[2 * m + 2] 1 := by
  have hexp : 2 * m + 2 = (m + 1) + (m + 1) := by omega
  rw [mulSquare, ← Function.iterate_succ_apply' (gmul a), ← gmul_iterate, ← Function.iterate_add_apply, hexp]

/-- `n` rounds reach the exponent `2^(n + 1) - 2`. -/
theorem mulSquare_iterate (a : Byte) (n : Nat) :
    (mulSquare a)^[n] 1 = (gmul a)^[2 ^ (n + 1) - 2] 1 := by
  induction n with
  | zero => rfl
  | succ n ih =>
    have hpos : 0 < 2 ^ n := Nat.two_pow_pos n
    have hexp : 2 * (2 ^ (n + 1) - 2) + 2 = 2 ^ (n + 1 + 1) - 2 := by omega
    rw [Function.iterate_succ_apply', ih, mulSquare_power, hexp]

theorem sbox_eq_affine_mulSquare : ∀ a : Byte,
    (let b := (mulSquare a)^[7] 1
     sbox a = b ^^^ b.rotateLeft 1 ^^^ b.rotateLeft 2 ^^^ b.rotateLeft 3 ^^^ b.rotateLeft 4 ^^^ 0x63) := by
  decide +kernel

/-- Settles O47: the power is taken in seven rounds, and the formula checked at each byte. -/
theorem sboxIsTheAffineInverse : Obligations.SboxIsTheAffineInverse := by
  intro a
  have hpower : (mulSquare a)^[7] 1 = (gmul a)^[254] 1 := mulSquare_iterate a 7
  rw [← hpower]
  exact ⟨sbox_eq_affine_mulSquare a, invSbox_sbox a⟩

end Sys2Proof.Machine
end

section
/-! PROOFS. The statements of spec/45_prim_sha1_hmac.md: the padding of a message (rule R160) and the check
values (rule R163). -/

namespace Sys2Proof.Machine

/-! ### The padding (rule R160) -/

theorem sha1ZeroCount_lt (len : Nat) : sha1ZeroCount len < 64 :=
  Nat.mod_lt _ (by decide)

theorem sha1ZeroCount_fills (len : Nat) : (len + 1 + sha1ZeroCount len + 8) % 64 = 0 := by
  unfold sha1ZeroCount
  omega

/-- Two counts that fill a block differ by a multiple of 64, and this one is below 64. -/
theorem sha1ZeroCount_le {len z : Nat} (hfill : (len + 1 + z + 8) % 64 = 0) : sha1ZeroCount len ≤ z := by
  have hmin := sha1ZeroCount_fills len
  have hlt := sha1ZeroCount_lt len
  omega

theorem sha1Pad_length (m : Bytes) : (sha1Pad m).length = m.length + 1 + sha1ZeroCount m.length + 8 := by
  simp only [sha1Pad, rep, List.length_append, List.length_singleton, List.length_replicate, i2osp_length]

theorem sha1Pad_take (m : Bytes) : (sha1Pad m).take m.length = m := by
  simp only [sha1Pad, List.append_assoc, List.take_left]

/-- Settles O49: the zero bytes are `sha1ZeroCount` many, the least count that fills a block. -/
theorem sha1PaddingFillsBlocks : Obligations.Sha1PaddingFillsBlocks := fun m =>
  ⟨by rw [sha1Pad_length, sha1ZeroCount_fills], sha1Pad_take m, sha1ZeroCount m.length,
    sha1ZeroCount_lt _, rfl, fun _ => sha1ZeroCount_le⟩

/-! ### The check values (rule R163) -/

/-- Settles O48: one block for the first two messages and two for the third, run by the kernel. -/
theorem sha1CheckValues : Obligations.Sha1CheckValues :=
  ⟨by decide +kernel, by decide +kernel, by decide +kernel⟩

end Sys2Proof.Machine
end

section
/-! PROOFS. The statements of spec/46_prim_rsa.md: the modular power (rule R170), and what undoes the OAEP
encoding (rules R173, R174). -/

namespace Sys2Proof.Machine

open Sys2Proof.Certificates

/-! ### RSAEP (rule R170) -/

/-- Settles O52: the square and multiply is the modular power, and a residue is below its modulus. -/
theorem rsaepIsTheModularPower : Obligations.RsaepIsTheModularPower := by
  intro n e m hn _ _
  have hpow : rsaep n e m = m ^ e % n := rsaep_eq_pow_mod n e m
  exact ⟨hpow, hpow ▸ Nat.mod_lt _ hn⟩

/-! ### The mask (rule R173) -/

/-- Each counter gives one digest. -/
theorem mgf1Blocks_length (z : Bytes) (n ctr : Nat) : (mgf1Blocks z n ctr).length = 20 * n := by
  induction n generalizing ctr with
  | zero => rfl
  | succ n ih =>
    rw [mgf1Blocks, List.length_append, sha1_length, ih]
    omega

/-- The digests reach the length asked for. -/
@[simp] theorem mgf1Sha1_length (z : Bytes) (l : Nat) : (mgf1Sha1 z l).length = l := by
  rw [mgf1Sha1, List.length_take, mgf1Blocks_length]
  omega

/-! ### The OAEP encoding (rule R174) -/

theorem oaepDataBlock_length {k : Nat} {m : Bytes} (h : m.length + 42 ≤ k) :
    (oaepDataBlock k m).length = k - 21 := by
  simp only [oaepDataBlock, rep, List.length_append, sha1_length, List.length_replicate,
    List.length_singleton]
  omega

theorem emeOaepSha1_length {k : Nat} {m seed : Bytes} (hm : m.length + 42 ≤ k) (hseed : seed.length = 20) :
    (emeOaepSha1 k m seed).length = k := by
  simp only [emeOaepSha1, List.length_append, List.length_singleton, xorBytes_length, mgf1Sha1_length,
    oaepDataBlock_length hm, hseed]
  omega

/-- Opening cuts an encoded message behind its lead byte and behind the 20 bytes of the masked seed. -/
theorem oaepOpen_masked {maskedSeed : Bytes} (hlen : maskedSeed.length = 20) (maskedDb : Bytes) :
    oaepOpen ([0x00] ++ maskedSeed ++ maskedDb) =
      (xorBytes maskedSeed (mgf1Sha1 maskedDb 20),
        xorBytes maskedDb (mgf1Sha1 (xorBytes maskedSeed (mgf1Sha1 maskedDb 20)) maskedDb.length)) := by
  have hseed : slice ([0x00] ++ maskedSeed ++ maskedDb) 1 21 = maskedSeed := List.take_left' hlen
  have hdb : ([0x00] ++ maskedSeed ++ maskedDb).drop 21 = maskedDb := List.drop_left' (by simp [hlen])
  rw [oaepOpen, hseed, hdb]

/-- The masked data block has the data block's length, so that opening makes the two masks again; each then
cancels. -/
theorem oaepOpen_emeOaepSha1 {k : Nat} {m seed : Bytes} (hm : m.length + 42 ≤ k)
    (hseed : seed.length = 20) : oaepOpen (emeOaepSha1 k m seed) = (seed, oaepDataBlock k m) := by
  have hdb : (oaepDataBlock k m).length = k - 21 := oaepDataBlock_length hm
  have hmaskedDb : (xorBytes (oaepDataBlock k m) (mgf1Sha1 seed (k - 21))).length = k - 21 := by simp [hdb]
  have hopenSeed (z : Bytes) : xorBytes (xorBytes seed (mgf1Sha1 z 20)) (mgf1Sha1 z 20) = seed :=
    xorBytes_cancel_right (by simp [hseed])
  have hopenDb : xorBytes (xorBytes (oaepDataBlock k m) (mgf1Sha1 seed (k - 21))) (mgf1Sha1 seed (k - 21)) =
      oaepDataBlock k m := xorBytes_cancel_right (by simp [hdb])
  rw [emeOaepSha1, oaepOpen_masked (by simp [hseed]), hopenSeed, hmaskedDb, hopenDb]

/-- Settles O53: the length and the opening have their lemmas, and the lead byte is written first. -/
theorem oaepEncodingCanBeOpened : Obligations.OaepEncodingCanBeOpened := fun _ _ _ hm hseed =>
  ⟨emeOaepSha1_length hm hseed, rfl, oaepOpen_emeOaepSha1 hm hseed⟩

end Sys2Proof.Machine
end

section
/-! PROOFS. The statement of spec/47_prim_codecs.md: the hex texts that are accepted, and their bytes (rule
R185). -/

namespace Sys2Proof.Machine

open Sys2Proof.Certificates

/-! ### Hex digits (rule R185) -/

/-- `ch` is the hex digit of the value `n`, in either case. -/
def IsHexDigit (n : Nat) (ch : Byte) : Prop := ch = lowerHex n ∨ ch = upperHex n

theorem isHexChar_iff_ranges (ch : Byte) :
    isHexChar ch = true ↔ 0x30 ≤ ch.toNat ∧ ch.toNat ≤ 0x39 ∨ 0x41 ≤ ch.toNat ∧ ch.toNat ≤ 0x46 ∨
      0x61 ≤ ch.toNat ∧ ch.toNat ≤ 0x66 := decide_eq_true_iff

theorem eq_ofNat_of_toNat {ch : Byte} {v : Nat} (h : ch.toNat = v) : ch = BitVec.ofNat 8 v := by
  rw [← h, BitVec.ofNat_toNat, BitVec.setWidth_eq]

/-- An accepted character is a digit of the value that `hv` gives it: the case split is that of `hv`. -/
theorem hexValue_of_isHexChar {ch : Byte} (h : isHexChar ch = true) :
    hexValue ch < 16 ∧ IsHexDigit (hexValue ch) ch := by
  rcases (isHexChar_iff_ranges ch).mp h with ⟨hlow, hhigh⟩ | ⟨hlow, hhigh⟩ | ⟨hlow, hhigh⟩
  · have hv : hexValue ch = ch.toNat - 0x30 := if_pos hhigh
    refine ⟨by omega, .inl (eq_ofNat_of_toNat ?_)⟩
    rw [if_pos (by omega)]
    omega
  · have hv : hexValue ch = ch.toNat - 0x37 :=
      (if_neg (by omega)).trans (if_pos hhigh)
    refine ⟨by omega, .inr (eq_ofNat_of_toNat ?_)⟩
    rw [if_neg (by omega)]
    omega
  · have hv : hexValue ch = ch.toNat - 0x57 :=
      (if_neg (by omega)).trans (if_neg (by omega))
    refine ⟨by omega, .inl (eq_ofNat_of_toNat ?_)⟩
    rw [if_neg (by omega)]
    omega

/-- The characters of the 16 values are accepted, in either case. -/
theorem isHexChar_lowerHex_upperHex :
    ∀ n < 16, isHexChar (lowerHex n) = true ∧ isHexChar (upperHex n) = true := by decide

theorem isHexChar_iff (ch : Byte) : isHexChar ch = true ↔ ∃ n, n < 16 ∧ IsHexDigit n ch := by
  constructor
  · exact fun h => ⟨hexValue ch, hexValue_of_isHexChar h⟩
  · rintro ⟨n, hn, rfl | rfl⟩
    · exact (isHexChar_lowerHex_upperHex n hn).1
    · exact (isHexChar_lowerHex_upperHex n hn).2

/-! ### Decoding (rule R185) -/

theorem hexDecode_eq_some_iff {s y : Bytes} :
    hexDecode s = some y ↔ s.length % 2 = 0 ∧ (∀ ch ∈ s, isHexChar ch = true) ∧ hexPairs s = y := by
  rw [hexDecode, Option.ite_none_left_eq_some, Option.ite_none_right_eq_some, not_not, List.all_eq_true,
    Option.some.injEq]

/-- Two characters for each byte; a last character without a partner gives none. -/
theorem hexPairs_length (s : Bytes) : (hexPairs s).length = s.length / 2 := by
  induction s using List.twoStepInduction with
  | nil => rfl
  | singleton ch => simp [hexPairs]
  | cons_cons hi lo rest ih =>
    simp only [hexPairs, List.length_cons, ih]
    omega

/-- Byte `j` is made of the pair `j`. -/
theorem hexPairs_getElem? {s : Bytes} {j : Nat} {b : Byte} (h : (hexPairs s)[j]? = some b) :
    ∃ hi lo, s[2 * j]? = some hi ∧ s[2 * j + 1]? = some lo ∧
      b = BitVec.ofNat 8 (16 * hexValue hi + hexValue lo) := by
  induction s using List.twoStepInduction generalizing j with
  | nil => cases h
  | singleton ch => cases h
  | cons_cons hi lo rest ih =>
    cases j with
    | zero => exact ⟨hi, lo, rfl, rfl, (Option.some.inj h).symm⟩
    | succ j => exact ih h

/-- Settles O57: a character is accepted as the digit of its value, and the two values of a pair are the halves
of its byte. -/
theorem hexDecodesDigitPairs : Obligations.HexDecodesDigitPairs := by
  intro s
  refine ⟨?_, fun y hy => ?_⟩
  · simp only [hexDecode_eq_some_iff, exists_and_left, exists_eq', and_true, isHexChar_iff, IsHexDigit]
  · obtain ⟨heven, hchars, rfl⟩ := hexDecode_eq_some_iff.mp hy
    refine ⟨by rw [hexPairs_length]; omega, fun j b hb => ?_⟩
    obtain ⟨hi, lo, hhi, hlo, rfl⟩ := hexPairs_getElem? hb
    obtain ⟨hhiLt, hhiDigit⟩ := hexValue_of_isHexChar (hchars hi (List.mem_of_getElem? hhi))
    obtain ⟨hloLt, hloDigit⟩ := hexValue_of_isHexChar (hchars lo (List.mem_of_getElem? hlo))
    have hbyte : (BitVec.ofNat 8 (16 * hexValue hi + hexValue lo)).toNat =
        16 * hexValue hi + hexValue lo := by
      rw [BitVec.toNat_ofNat]
      omega
    have hhigh : (16 * hexValue hi + hexValue lo) / 16 = hexValue hi := by omega
    have hlow : (16 * hexValue hi + hexValue lo) % 16 = hexValue lo := by omega
    rw [hbyte, hhigh, hlow]
    exact ⟨hi, lo, hhi, hlo, hhiDigit, hloDigit⟩

end Sys2Proof.Machine
end

section
/-! PROOFS. The statements of spec/60_exceptions.md: the status codes (rule R200), what an error response
carries and leaves unchanged (rules R201 to R204), exhaustion (rule R205), the fatal block (rule R206), the
operand limit (rule R207) and the completeness of all responses (rule R208). -/

namespace Sys2Proof.Machine

/-! ### Complete responses (rules R200, R201, R206, R208) -/

theorem responseComplete_ok (result : Word) (out : Bytes) :
    ResponseComplete { status := .ok, result := result, out := out } :=
  ⟨nofun, nofun, fun h => absurd rfl h, fun h => absurd rfl h, nofun⟩

theorem responseComplete_error {st : Status} (hconfig : st ≠ .errConfig) (hunavail : st ≠ .errUnavailable)
    (hhalted : st ≠ .errHalted) : ResponseComplete { status := st, result := 0, out := [] } :=
  ⟨hconfig, hunavail, fun _ => rfl, fun _ _ => rfl, fun h => absurd h hhalted⟩

/-- The cause that a fatal block of the invariant answers is 0x30 or 0x32. -/
theorem responseComplete_halted {s : State} (hfat : FatalInv s) (hf : s.fatal = true) :
    ResponseComplete { status := .errHalted, result := s.fatalCause.zeroExtend 32, out := [] } := by
  obtain ⟨-, hcause, -⟩ := hfat
  refine ⟨nofun, nofun, fun _ => rfl, fun _ h => absurd rfl h, fun _ => ?_⟩
  rcases hcause hf with h | h
  · exact .inl (by simp [h])
  · exact .inr (by simp [h])

/-- The errors that a command raises before any draw are not the two that no response carries, and not
`ERR_HALTED`. -/
theorem responseComplete_ownError {i : Instr} {st : Status} (h : st ∈ .errLength :: ownErrors i) :
    ResponseComplete { status := st, result := 0, out := [] } := by
  have hne : ∀ e ∈ .errLength :: ownErrors i,
      e ≠ .errConfig ∧ e ≠ .errUnavailable ∧ e ≠ .errHalted := by
    cases i <;> simp [ownErrors]
  obtain ⟨hconfig, hunavail, hhalted⟩ := hne st h
  exact responseComplete_error hconfig hunavail hhalted

/-- A result that, where it is a next state, has only complete responses. -/
def CompleteAfter (r : Result) : Prop := ∀ t, r = .next t → ResponsesComplete t

theorem completeAfter_unanswered {s t : State} (h : ResponsesComplete s)
    (hd : t.delivered = s.delivered) : CompleteAfter (.next t) := by
  rintro _ ⟨⟩ d hmem
  exact h d (hd ▸ hmem)

theorem completeAfter_answered {s t : State} {host : Nat} {r : Response} (h : ResponsesComplete s)
    (hd : t.delivered = s.delivered ++ [{ host := host, response := r }]) (hr : ResponseComplete r) :
    CompleteAfter (.next t) := by
  rintro _ ⟨⟩ d hmem
  rw [hd, List.mem_append, List.mem_singleton] at hmem
  rcases hmem with hold | rfl
  · exact h d hold
  · exact hr

theorem completeAfter_fault (f : Fault) : CompleteAfter (.fault f) := fun _ h => by cases h

theorem completeAfter_refused (r : Refusal) : CompleteAfter (.refused r) := fun _ h => by cases h

/-- Each way in which an execution can end delivers nothing or one complete response. -/
theorem exec_complete (i : Instr) {s : State} (hfat : FatalInv s) (h : ResponsesComplete s) :
    CompleteAfter (exec i s) := by
  rcases exec_cases i s with ⟨-, he⟩ | ⟨c, rest, -, ⟨hf, he⟩ | ⟨-, -, he⟩ | ⟨-, -, st, hst, he⟩ |
    ⟨-, ⟨result, out, used, q, -, -, he⟩ | ⟨used, q, -, he⟩ | ⟨req, -, he⟩ | ⟨f, -, he⟩⟩⟩
  all_goals rw [he]
  · exact completeAfter_unanswered h rfl
  · exact completeAfter_answered h rfl (responseComplete_halted hfat hf)
  · exact completeAfter_unanswered h rfl
  · exact completeAfter_answered h rfl (responseComplete_ownError hst)
  · exact completeAfter_answered h rfl (responseComplete_ok result out)
  · exact completeAfter_answered h rfl (responseComplete_error nofun nofun nofun)
  · exact completeAfter_unanswered h rfl
  · exact completeAfter_fault f

theorem answerIllegal_complete {s : State} (hfat : FatalInv s) (h : ResponsesComplete s) :
    CompleteAfter (answerIllegal s) := by
  rcases answerIllegal_cases s with ⟨-, he⟩ | ⟨c, rest, -, ⟨hf, he⟩ | ⟨-, -, he⟩ | ⟨-, -, he⟩⟩
  all_goals rw [he]
  · exact completeAfter_unanswered h rfl
  · exact completeAfter_answered h rfl (responseComplete_halted hfat hf)
  · exact completeAfter_unanswered h rfl
  · exact completeAfter_answered h rfl (responseComplete_error nofun nofun nofun)

theorem engineStep_complete {s : State} (hfat : FatalInv s) (h : ResponsesComplete s) :
    CompleteAfter (engineStep s) := by
  rcases engineStep_cases s with ⟨-, he⟩ | ⟨c, rest, i, -, -, he⟩ | ⟨c, rest, e, -, -, he⟩
  all_goals rw [he]
  · exact completeAfter_unanswered h rfl
  · exact exec_complete i hfat h
  · exact answerIllegal_complete hfat h

theorem issue_complete (c : Command) {s : State} (h : ResponsesComplete s) :
    CompleteAfter (issue c s) := by
  rcases issue_cases c s with ⟨-, he⟩ | ⟨-, he⟩
  all_goals rw [he]
  · exact completeAfter_unanswered h rfl
  · exact completeAfter_refused _

/-- No agent but the engine delivers a response. -/
theorem takeTurn_complete (t : Turn) {s : State} (hfat : FatalInv s) (h : ResponsesComplete s) :
    CompleteAfter (takeTurn t s) := by
  cases t with
  | issue c => exact issue_complete c h
  | engine => exact engineStep_complete hfat h
  | reset => exact completeAfter_unanswered h (resetBlock_delivered s)
  | arbitrate host => exact completeAfter_unanswered h (arbitrate_delivered host s)
  | generator => exact completeAfter_unanswered h (genStep_delivered s)
  | entropy a => exact completeAfter_unanswered h (supply_delivered a s)
  | source => exact completeAfter_unanswered h (sourceStep_delivered s)
  | idle => exact completeAfter_unanswered h rfl

/-- Settles O21: the turn only shortens the schedule, and each agent's turn keeps the responses complete. -/
theorem responsesStayComplete : Obligations.ResponsesStayComplete := by
  intro s t hinv hresp hstep
  obtain ⟨-, -, hfat, -⟩ := hinv
  refine takeTurn_complete (nextTurn s).1 (s := (nextTurn s).2) ?_ ?_ t hstep
  all_goals rw [nextTurn_state]
  · exact hfat
  · exact hresp

/-! ### Error responses (rules R200 to R204) -/

/-- Settles O17: the codes are those of the definition, and a byte's high nibble is its quotient by 16. -/
theorem statusCodesAndClasses : Obligations.StatusCodesAndClasses := by
  refine ⟨rfl, fun st => ?_⟩
  cases st <;> rfl

/-- One response more in the record is one response. -/
theorem delivered_response_inj {l : List Delivery} {host : Nat} {r r' : Response}
    (h : l ++ [{ host := host, response := r }] = l ++ [{ host := host, response := r' }]) : r = r' := by
  simpa using h

/-- A response that an execution delivers is a success, an exhaustion, or an error that leaves the state
but for its response. -/
theorem exec_response_cases {i : Instr} {s t : State} {c : Command} {rest : List Command} {r : Response}
    (hp : s.pending = c :: rest) (hexec : exec i s = .next t)
    (hr : t.delivered = s.delivered ++ [{ host := c.host, response := r }]) :
    r.status = .ok ∨ r.status = .errRng ∨
      (r.status ∈ .errHalted :: .errLength :: ownErrors i ∧ r.out = [] ∧
        t = rejected s c rest r.status r.result) := by
  rcases exec_cases i s with ⟨hnil, -⟩ | ⟨c', rest', hp', h⟩
  · cases hnil.symm.trans hp
  cases hp'.symm.trans hp
  have hhold : t.delivered ≠ s.delivered := fun hd => by simp [hd] at hr
  rcases h with ⟨-, he⟩ | ⟨-, -, he⟩ | ⟨-, -, st, hst, he⟩ |
    ⟨-, ⟨result, out, used, q, -, -, he⟩ | ⟨used, q, -, he⟩ | ⟨req, -, he⟩ | ⟨f, -, he⟩⟩
  all_goals cases he.symm.trans hexec
  · obtain rfl := delivered_response_inj hr
    exact .inr (.inr ⟨List.mem_cons_self, rfl, rfl⟩)
  · exact absurd rfl hhold
  · obtain rfl := delivered_response_inj hr
    exact .inr (.inr ⟨List.mem_cons_of_mem _ hst, rfl, rfl⟩)
  · obtain rfl := delivered_response_inj hr
    exact .inl rfl
  · obtain rfl := delivered_response_inj hr
    exact .inr (.inl rfl)
  · exact absurd rfl hhold

/-- Settles O19: an error that is not an exhaustion leaves the rejected state. -/
theorem errorsArePreciseAndDrawNothing : Obligations.ErrorsArePreciseAndDrawNothing := by
  intro i s t c rest r hp hexec hr hok hrng
  obtain ⟨-, hout, ht⟩ := ((exec_response_cases hp hexec hr).resolve_left hok).resolve_left hrng
  exact ⟨hout, ht⟩

/-- The errors that a command other than `pdec` raises before any draw have other classes than 2. -/
theorem classNibble_ne_two {i : Instr} (hi : i ≠ .pdec) :
    ∀ st ∈ .errHalted :: .errLength :: ownErrors i, st.code.toNat / 16 ≠ 2 := by
  cases i with
  | pdec => exact absurd rfl hi
  | crc32 | tblrd | skgen | penc | credenc =>
    simp only [ownErrors]
    decide

/-- Settles O20: a success and an exhaustion have other classes too. -/
theorem integrityErrorsOnlyFromPdec : Obligations.IntegrityErrorsOnlyFromPdec := by
  intro i s t c rest r hp hexec hr hclass
  by_contra hi
  rcases exec_response_cases hp hexec hr with hst | hst | ⟨hst, -, -⟩
  · exact absurd hclass (by rw [hst]; decide)
  · exact absurd hclass (by rw [hst]; decide)
  · exact classNibble_ne_two hi r.status hst hclass

/-! ### Exhaustion (rule R205) -/

/-- An exhaustion that an operation meets ends the command and latches FATAL. -/
theorem exec_of_exhausted {i : Instr} {s : State} {c : Command} {rest : List Command} {q : List Answer}
    (hx : Executable s c rest) (h : operation i c s = .raise .errRng q) :
    exec i s = .next (exhaustedState s c rest q) := by
  rw [exec_eq_execute, execute_of_executable hx, h, commit, raise_errRng (not_fatal_of_executable hx)]

/-- The draw of either padding can be the one that is exhausted. -/
theorem skgenPad_exhausted (cfg : Cfg) (nonce plain : Bytes) (q : List Answer) :
    skgenPad cfg nonce plain (.exhausted :: q) = .raise .errRng q := by
  unfold skgenPad
  cases cfg.kePad <;> rfl

/-- Settles O14: each command reaches its draw, and a draw on an exhausted source raises `ERR_RNG`. -/
theorem exhaustionEndsTheDrawingCommands : Obligations.ExhaustionEndsTheDrawingCommands := by
  intro s c rest q hx
  refine ⟨fun ha hq => exec_of_exhausted hx ?_, fun plain ha hplain hq => exec_of_exhausted hx ?_,
    fun hb hq => exec_of_exhausted hx ?_,
    fun nb eb hn he hnpos hepos hlow hq => exec_of_exhausted hx ?_⟩
  · rw [operation, skgenOp_of_length ha, hq, withDraw_exhausted]
  · rw [operation, skgenOp_of_length ha, hq, withDraw_answer (answersReq_any.mpr hplain),
      skgenPad_exhausted]
  · rw [operation, pencOp_of_length hb, hq, withDraw_exhausted]
  · have hlen : c.a.length + 11 ≤ octlen (os2ip nb) :=
      Nat.lt_of_not_le fun hle => hlow.not_gt ((lt_pow_iff_octlen_le _ _).mpr hle)
    rw [operation, credencOp_of_accepted s hn he hnpos.ne' hepos.ne' rfl hlen, hq, withDraw_exhausted]

/-! ### The fatal block (rule R206) -/

/-- The engine's turn in a fatal block, every field of the state after it written out. -/
theorem engineStep_of_fatal_eq_rejected {s : State} {c : Command} {rest : List Command}
    (hp : s.pending = c :: rest) (hf : s.fatal = true) :
    engineStep s =
      .next (rejected s c rest .errHalted (BitVec.ofNat 32 s.fatalCause.toNat)) := by
  rw [engineStep_of_fatal hp hf, raise_eq_rejected rfl, BitVec.ofNat_toNat]
  rfl

/-- Settles O12: the turn is the engine's, scheduled or chosen, and FATAL is sticky. -/
theorem fatalBlockAnswersHalted : Obligations.FatalBlockAnswersHalted := by
  intro s c rest hpow hf hp
  refine ⟨fun l hs => ?_, fun hs => ?_, fun t hstep hno => ?_⟩
  · rw [step_scheduled hs hpow]
    exact engineStep_of_fatal_eq_rejected (s := { s with schedule := l }) hp hf
  · rw [step_chosen hs hpow, chooseTurn_engine_of_fatal hp hf]
    exact engineStep_of_fatal_eq_rejected hp hf
  · obtain ⟨hsticky, -⟩ := fatalIsStickyAndSetByExhaustion s t hstep hno
    exact (hsticky hf).1

/-! ### The operand limit (rule R207) -/

theorem operandTooLong_iff {cfg : Cfg} {m : Nat} (h : cfg.operandMax = some m) (c : Command) :
    operandTooLong cfg c = true ↔ m < c.a.length ∨ m < c.b.length ∨ m < c.c.length := by
  simp [operandTooLong, exceeds, h, or_assoc]

theorem operandTooLong_unbounded {cfg : Cfg} (h : cfg.operandMax = none) (c : Command) :
    operandTooLong cfg c = false := by
  simp [operandTooLong, exceeds, h]

/-- Settles O16: the limit is checked before the operation is looked at. -/
theorem operandLimitIsChecked : Obligations.OperandLimitIsChecked := by
  refine ⟨fun i s c rest m hp hf ht hmax hlong => ?_, fun cfg c => (operandTooLong_unbounded · c)⟩
  have hfatal : ¬ s.fatal = true := by simp [hf]
  rw [exec_eq_execute, execute_cons _ hp, if_neg hfatal, if_pos ht,
    if_pos ((operandTooLong_iff hmax c).mpr hlong), raise_eq_rejected rfl]
  rfl

end Sys2Proof.Machine
end

section
/-! PROOFS. The statements of spec/70_reset_and_hazards.md: the block before its first reset and the power-on
reset (rules R230, R231, R234), and the end of a run (rules R237, R239). -/

namespace Sys2Proof.Machine

/-! ### Before the first reset (rule R231) -/

theorem nextTurn_of_unpowered {s : State} (hp : s.powered = false)
    (hno : s.schedule.head? ≠ some .reset) :
    nextTurn s = (.idle, { s with schedule := s.schedule.tail }) := by
  refine Prod.ext ?_ (nextTurn_state s)
  cases hs : s.schedule with
  | nil => simp [nextTurn, hs, hp, chooseTurn_ne_reset]
  | cons t l =>
    have ht : t ≠ .reset := fun heq => hno (by rw [hs, heq]; rfl)
    simp [nextTurn, hs, hp, ht]

/-- Settles O10: the turn is none, and taking it off the schedule is all that is left. -/
theorem nothingHappensBeforeTheFirstReset : Obligations.NothingHappensBeforeTheFirstReset := by
  intro s hp hno
  rw [step, nextTurn_of_unpowered hp hno]
  rfl

/-! ### The power-on reset (rules R230, R231, R234) -/

/-- The reset check of rule R232 on the key of `Cfg.specTest`, 1024 bits that have to be computed with. -/
theorem keyMalformed_specTest : keyMalformed Cfg.specTest = false := by decide +kernel

/-- `State.reset` is what a reset makes of the chosen configuration. -/
theorem resetBlock_unpowered_specTest : resetBlock (State.unpowered Cfg.specTest) = State.reset := by
  have hkey : keyMalformed (State.unpowered Cfg.specTest).cfg = false := keyMalformed_specTest
  rw [resetBlock_eq, hkey]
  rfl

/-- Settles O11: the scheduled reset is taken in a block that has had none. -/
theorem powerOnResetGivesResetState : Obligations.PowerOnResetGivesResetState := by
  unfold Obligations.PowerOnResetGivesResetState
  rw [step, nextTurn_reset rfl, ← resetBlock_unpowered_specTest]
  rfl

/-- Settles O23: `State.reset` is the state of a reset too, and its block has delivered nothing. -/
theorem resetEstablishesTheInvariant : Obligations.ResetEstablishesTheInvariant :=
  ⟨resetBlock_inv, resetBlock_unpowered_specTest ▸ resetBlock_inv _, fun _ h => by cases h⟩

/-! ### Runs (rules R237, R239) -/

theorem Leads.trans {j k : Nat} {s t u : State} (h : Leads j s t) (h' : Leads k t u) :
    Leads (j + k) s u := by
  induction j generalizing s with
  | zero =>
    obtain rfl := h
    rwa [Nat.zero_add]
  | succ j ih =>
    obtain ⟨v, hstep, hv⟩ := h
    rw [Nat.succ_add]
    exact ⟨v, hstep, ih hv⟩

/-- What every step keeps, every run keeps. -/
theorem Leads.keeps {P : State → Prop} (hP : ∀ s t, P s → step s = .next t → P t) {k : Nat} {s t : State}
    (h : Leads k s t) (hs : P s) : P t := by
  induction k generalizing s with
  | zero =>
    obtain rfl := h
    exact hs
  | succ k ih =>
    obtain ⟨u, hstep, hu⟩ := h
    exact ih hu (hP s u hs hstep)

/-- A result that, where it is a next state, has the schedule and the dropped hosts of `s`. -/
def KeepsSchedule (s : State) (r : Result) : Prop :=
  ∀ t, r = .next t → t.schedule = s.schedule ∧ t.dropped = s.dropped

theorem keepsSchedule_next {s t : State} (hs : t.schedule = s.schedule) (hd : t.dropped = s.dropped) :
    KeepsSchedule s (.next t) := by
  rintro _ ⟨⟩
  exact ⟨hs, hd⟩

theorem exec_keepsSchedule (i : Instr) (s : State) : KeepsSchedule s (exec i s) := by
  rcases exec_cases i s with ⟨-, h⟩ | ⟨c, rest, -, ⟨-, h⟩ | ⟨-, -, h⟩ | ⟨-, -, st, -, h⟩ |
    ⟨-, ⟨result, out, used, q, -, -, h⟩ | ⟨used, q, -, h⟩ | ⟨req, -, h⟩ | ⟨f, -, h⟩⟩⟩
  all_goals rw [h]
  on_goal 8 => exact fun _ hnext => by cases hnext
  all_goals exact keepsSchedule_next rfl rfl

theorem answerIllegal_keepsSchedule (s : State) : KeepsSchedule s (answerIllegal s) := by
  rcases answerIllegal_cases s with ⟨-, h⟩ | ⟨c, rest, -, ⟨-, h⟩ | ⟨-, -, h⟩ | ⟨-, -, h⟩⟩
  all_goals exact h ▸ keepsSchedule_next rfl rfl

theorem engineStep_keepsSchedule (s : State) : KeepsSchedule s (engineStep s) := by
  rcases engineStep_cases s with ⟨-, h⟩ | ⟨c, rest, i, -, -, h⟩ | ⟨c, rest, e, -, -, h⟩
  · exact h ▸ keepsSchedule_next rfl rfl
  · exact h ▸ exec_keepsSchedule i s
  · exact h ▸ answerIllegal_keepsSchedule s

theorem issue_keepsSchedule (c : Command) (s : State) : KeepsSchedule s (issue c s) := by
  rcases issue_cases c s with ⟨-, h⟩ | ⟨-, h⟩
  · exact h ▸ keepsSchedule_next rfl rfl
  · rw [h]
    exact fun _ hnext => by cases hnext

/-- Only a reset drops commands. -/
theorem takeTurn_keepsSchedule {t : Turn} (ht : t ≠ .reset) (s : State) :
    KeepsSchedule s (takeTurn t s) := by
  cases t with
  | reset => exact absurd rfl ht
  | issue c => exact issue_keepsSchedule c s
  | engine => exact engineStep_keepsSchedule s
  | arbitrate host => exact keepsSchedule_next (arbitrate_schedule host s) (arbitrate_dropped host s)
  | generator => exact keepsSchedule_next (genStep_schedule s) (genStep_dropped s)
  | entropy a => exact keepsSchedule_next (supply_schedule a s) (supply_dropped a s)
  | source => exact keepsSchedule_next (sourceStep_schedule s) (sourceStep_dropped s)
  | idle => exact keepsSchedule_next rfl rfl

/-- A block of the invariant with a live source, nothing scheduled and no command dropped. -/
structure LiveRun (s : State) : Prop where
  inv : Inv s
  unscheduled : s.schedule = []
  live : s.rngLive = true
  undropped : s.dropped = []

theorem LiveRun.next {s t : State} (h : LiveRun s) (hstep : step s = .next t) : LiveRun t := by
  obtain ⟨hpow, -⟩ := h.inv
  obtain ⟨hschedule, hdropped⟩ := takeTurn_keepsSchedule (chooseTurn_ne_reset s) s t
    (step_chosen h.unscheduled hpow ▸ hstep)
  exact {
    inv := everyStepKeepsTheInvariant s t h.inv hstep
    unscheduled := hschedule.trans h.unscheduled
    live := (configurationIsFixed s t hstep).2.trans h.live
    undropped := hdropped.trans h.undropped }

/-- The table of the invariant is the one with GEN_IDX entries. -/
theorem withEntries_of_tableInv {s : State} (h : TableInv s) : withEntries s s.genIdx = s := by
  obtain ⟨-, htable, hvalid⟩ := h
  have hready : decide (s.genIdx = 256) = s.tblValid := by
    rw [Bool.eq_iff_iff, decide_eq_true_iff, hvalid]
  rw [withEntries, ← htable, hready]

/-- With nothing outstanding, the generator completes the table, and the run has ended (rule R239). -/
theorem LiveRun.ends_of_idle {s : State} (h : LiveRun s) (hp : s.pending = []) :
    ∃ k t, Leads k s t ∧ Ended t ∧ t.delivered = s.delivered := by
  obtain ⟨hpow, htab, -⟩ := h.inv
  obtain ⟨hle, -, -⟩ := id htab
  have hleads : Leads (256 - s.genIdx) (withEntries s s.genIdx)
      (withEntries s (s.genIdx + (256 - s.genIdx))) :=
    leads_withEntries hpow h.unscheduled hp (by omega)
  rw [withEntries_of_tableInv htab, Nat.add_sub_cancel' hle] at hleads
  exact ⟨_, _, hleads, ⟨hpow, hp, h.undropped, fun hlt => absurd hlt (lt_irrefl 256)⟩, rfl⟩

/-- The run ends, and its responses went to the hosts of the commands outstanding, in their order. -/
def EndsAnswered (s : State) : Prop :=
  ∃ k t, Leads k s t ∧ Ended t ∧
    t.delivered.map (fun d => d.host) =
      s.delivered.map (fun d => d.host) ++ s.pending.map (fun c => c.host)

/-- By the number of commands outstanding: the first is answered, and the run goes on with the others. -/
theorem LiveRun.endsAnswered {s : State} {l : List Command} (h : LiveRun s) (hp : s.pending = l) :
    EndsAnswered s := by
  induction l generalizing s with
  | nil =>
    obtain ⟨k, t, hleads, hended, hdel⟩ := h.ends_of_idle hp
    exact ⟨k, t, hleads, hended, by simp [hdel, hp]⟩
  | cons c rest ih =>
    obtain ⟨j, u, r, hfirst, hrest, hu⟩ :=
      everyCommandIsEventuallyAnswered s c rest h.inv h.unscheduled h.live hp
    have hlive : LiveRun u := hfirst.keeps (fun _ _ hv hstep => LiveRun.next hv hstep) h
    obtain ⟨k, t, hothers, hended, hdel⟩ := ih hlive hrest
    exact ⟨j + k, t, hfirst.trans hothers, hended, by simp [hdel, hu, hrest, hp]⟩

/-- Settles O32: each outstanding command is answered in turn, and the table is completed at the end. -/
theorem liveRunsEnd : Obligations.LiveRunsEnd :=
  fun _ hinv hs hlive hdropped => LiveRun.endsAnswered ⟨hinv, hs, hlive, hdropped⟩ rfl

end Sys2Proof.Machine
end
